-- ==== Sys2Proof/Word.lean ====
section
/-! DEFINITION. The word types of the cm_vm core (00_scope.md R6, R7). Arithmetic on them is in
Machine/Operands.lean. -/

namespace Sys2Proof

/-- A 32-bit pattern: a general register, the program counter, `rem`, `fault_pc`. -/
abbrev Word := BitVec 32

/-- Eight bits: an addressable unit of the program buffer, an opcode byte, an operand field. -/
abbrev Byte := BitVec 8

end Sys2Proof
end

