-- ==== Sys2Proof/Syntax.lean ====
section
/-! DEFINITION. The instructions of the cm_vm ISA (30_encoding.md R61 to R66), one constructor per mnemonic
of spec/opcode_table.json. The table's seven ILLEGAL rows are seven patterns over one opcode byte and
one mnemonic (R87), so they are one constructor (log entry 11). Operand fields keep their encoded
width; a register index may be any byte, and what an index beyond the register file does is the
machine's business (R67). -/

namespace Sys2Proof

/-- A decoded instruction. Fields stand in encoding order: `a`, `b` sources, `d` destination, `r` the
register of a jump, `pad` and `ign` the bytes that are fetched and ignored (R70). -/
inductive Instr where
  | load (d : Byte) (imm : BitVec 16)
  | add (a b d : Byte)
  | sub (a b d : Byte)
  | mul (a b d : Byte)
  | div (a b d : Byte)
  | hlt
  | jmp (r : Byte)
  | jmpf (r : Byte)
  | jmpb (r : Byte)
  | eq (a b pad : Byte)
  | neq (a b pad : Byte)
  | gt (a b pad : Byte)
  | lt (a b pad : Byte)
  | gtq (a b pad : Byte)
  | ltq (a b pad : Byte)
  | jeq (r : Byte)
  | aloc (ign : Byte)
  /-- An opcode byte that selects no defined operation. `b0` is that byte. -/
  | illegal (b0 : Byte)
deriving DecidableEq, Repr

end Sys2Proof
end

