-- ==== Sys2Proof/WellFormed.lean ====
section
/-! DEFINITION. Which terms of `Instr` some byte sequence spells. Every field of every format admits
every value of its width (30_encoding.md R67, R68, R70); the one check is that ILLEGAL carries a byte
outside the defined set 0 to 16 (R65, R69). -/

namespace Sys2Proof

/-- The instruction is one the decoder can produce. -/
def Instr.wf : Instr → Bool
  | .load _ _ => true
  | .add _ _ _ => true
  | .sub _ _ _ => true
  | .mul _ _ _ => true
  | .div _ _ _ => true
  | .hlt => true
  | .jmp _ => true
  | .jmpf _ => true
  | .jmpb _ => true
  | .eq _ _ _ => true
  | .neq _ _ _ => true
  | .gt _ _ _ => true
  | .lt _ _ _ => true
  | .gtq _ _ _ => true
  | .ltq _ _ _ => true
  | .jeq _ => true
  | .aloc _ => true
  | .illegal b0 => decide (17 ≤ b0.toNat)

end Sys2Proof
end

