-- ==== Sys2Proof/Decode.lean ====
section
/-! DEFINITION. The binary encoding of 30_encoding.md part 1: the opcode map, the formats and lengths, the
decoder and the encoder. -/

namespace Sys2Proof

/-- The seventeen defined operations, in the order of the opcode map (R65). -/
inductive Op where
  | load | add | sub | mul | div | hlt | jmp | jmpf | jmpb
  | eq | neq | gt | lt | gtq | ltq | jeq | aloc
deriving DecidableEq, Repr

/-- The closed set of R65 with its catch-all. -/
inductive Opcode where
  | defined (op : Op)
  | illegal
deriving DecidableEq, Repr

/-- The five formats of R61 to R64 and R66. -/
inductive Format where
  | z | r | ri | rrr | rrx
deriving DecidableEq, Repr

/-- Why a byte list spells no whole instruction. `noBytes`: it is empty. `truncated b0`: it has the
opcode byte `b0` and not all of that opcode's operand bytes. Safe: nothing is decoded. -/
inductive DecodeError where
  | noBytes
  | truncated (b0 : Byte)
deriving DecidableEq, Repr

/-- The opcode map of R65, right to left. -/
def Op.code : Op → Byte
  | .load => 0x00#8
  | .add => 0x01#8
  | .sub => 0x02#8
  | .mul => 0x03#8
  | .div => 0x04#8
  | .hlt => 0x05#8
  | .jmp => 0x06#8
  | .jmpf => 0x07#8
  | .jmpb => 0x08#8
  | .eq => 0x09#8
  | .neq => 0x0A#8
  | .gt => 0x0B#8
  | .lt => 0x0C#8
  | .gtq => 0x0D#8
  | .ltq => 0x0E#8
  | .jeq => 0x0F#8
  | .aloc => 0x10#8

/-- The opcode map of R65, left to right; `none` is ILLEGAL (R69). -/
def Op.ofByte (b0 : Byte) : Option Op :=
  match b0.toNat with
  | 0 => some .load
  | 1 => some .add
  | 2 => some .sub
  | 3 => some .mul
  | 4 => some .div
  | 5 => some .hlt
  | 6 => some .jmp
  | 7 => some .jmpf
  | 8 => some .jmpb
  | 9 => some .eq
  | 10 => some .neq
  | 11 => some .gt
  | 12 => some .lt
  | 13 => some .gtq
  | 14 => some .ltq
  | 15 => some .jeq
  | 16 => some .aloc
  | _ => none

/-- `byte_to_opcode` of R84: the hardware decoder's choice of arm. -/
def byteToOpcode (b0 : Byte) : Opcode :=
  match Op.ofByte b0 with
  | some op => .defined op
  | none => .illegal

/-- `opcode_to_byte` of R84; the parameter is ILLEGAL_BYTE. -/
def opcodeToByte (illegalByte : Byte) : Opcode → Byte
  | .defined op => op.code
  | .illegal => illegalByte

/-- The format column of R65. -/
def Op.format : Op → Format
  | .load => .ri
  | .add | .sub | .mul | .div => .rrr
  | .hlt => .z
  | .jmp | .jmpf | .jmpb | .jeq | .aloc => .r
  | .eq | .neq | .gt | .lt | .gtq | .ltq => .rrx

/-- The length of a format in bytes (R61 to R64, R66). -/
def Format.length : Format → Nat
  | .z => 1
  | .r => 2
  | .ri | .rrr | .rrx => 4

/-- `len(B0)` of R72: the length of an instruction is a function of its first byte alone (R60). -/
def instrLen (b0 : Byte) : Nat :=
  match Op.ofByte b0 with
  | some op => op.format.length
  | none => 1

/-- Two bytes read big-endian, the first the more significant (20_memory.md R41). -/
def be16 (hi lo : Byte) : BitVec 16 := hi ++ lo

/-- `decode(B0, B1, B2, B3)` of R73: total, and reading only the operand bytes of B0's format. -/
def decodeInstr (b0 b1 b2 b3 : Byte) : Instr :=
  match Op.ofByte b0 with
  | some .load => .load b1 (be16 b2 b3)
  | some .add => .add b1 b2 b3
  | some .sub => .sub b1 b2 b3
  | some .mul => .mul b1 b2 b3
  | some .div => .div b1 b2 b3
  | some .hlt => .hlt
  | some .jmp => .jmp b1
  | some .jmpf => .jmpf b1
  | some .jmpb => .jmpb b1
  | some .eq => .eq b1 b2 b3
  | some .neq => .neq b1 b2 b3
  | some .gt => .gt b1 b2 b3
  | some .lt => .lt b1 b2 b3
  | some .gtq => .gtq b1 b2 b3
  | some .ltq => .ltq b1 b2 b3
  | some .jeq => .jeq b1
  | some .aloc => .aloc b1
  | none => .illegal b0

/-- Decode the instruction at the head of a byte list; the answer holds the bytes after it. -/
def decode : List Byte → Except DecodeError (Instr × List Byte)
  | [] => .error .noBytes
  | b0 :: rest =>
    let n := instrLen b0 - 1
    if rest.length < n then .error (.truncated b0)
    else .ok (decodeInstr b0 (rest.getD 0 0#8) (rest.getD 1 0#8) (rest.getD 2 0#8), rest.drop n)

/-- The bytes of an instruction, in increasing address order (20_memory.md R42, formats R61 to R66). -/
def encode : Instr → List Byte
  | .load d imm => [Op.load.code, d, imm.extractLsb' 8 8, imm.extractLsb' 0 8]
  | .add a b d => [Op.add.code, a, b, d]
  | .sub a b d => [Op.sub.code, a, b, d]
  | .mul a b d => [Op.mul.code, a, b, d]
  | .div a b d => [Op.div.code, a, b, d]
  | .hlt => [Op.hlt.code]
  | .jmp r => [Op.jmp.code, r]
  | .jmpf r => [Op.jmpf.code, r]
  | .jmpb r => [Op.jmpb.code, r]
  | .eq a b pad => [Op.eq.code, a, b, pad]
  | .neq a b pad => [Op.neq.code, a, b, pad]
  | .gt a b pad => [Op.gt.code, a, b, pad]
  | .lt a b pad => [Op.lt.code, a, b, pad]
  | .gtq a b pad => [Op.gtq.code, a, b, pad]
  | .ltq a b pad => [Op.ltq.code, a, b, pad]
  | .jeq r => [Op.jeq.code, r]
  | .aloc ign => [Op.aloc.code, ign]
  | .illegal b0 => [b0]

/-- The opcode byte `B0` of an instruction, which a fault records (60_exceptions.md R165). -/
def firstByte : Instr → Byte
  | .load _ _ => Op.load.code
  | .add _ _ _ => Op.add.code
  | .sub _ _ _ => Op.sub.code
  | .mul _ _ _ => Op.mul.code
  | .div _ _ _ => Op.div.code
  | .hlt => Op.hlt.code
  | .jmp _ => Op.jmp.code
  | .jmpf _ => Op.jmpf.code
  | .jmpb _ => Op.jmpb.code
  | .eq _ _ _ => Op.eq.code
  | .neq _ _ _ => Op.neq.code
  | .gt _ _ _ => Op.gt.code
  | .lt _ _ _ => Op.lt.code
  | .gtq _ _ _ => Op.gtq.code
  | .ltq _ _ _ => Op.ltq.code
  | .jeq _ => Op.jeq.code
  | .aloc _ => Op.aloc.code
  | .illegal b0 => b0

/-- The register index fields of an instruction, the ones R106 checks: not the pad byte, not ALOC's. -/
def regFields : Instr → List Byte
  | .load d _ => [d]
  | .add a b d => [a, b, d]
  | .sub a b d => [a, b, d]
  | .mul a b d => [a, b, d]
  | .div a b d => [a, b, d]
  | .hlt => []
  | .jmp r => [r]
  | .jmpf r => [r]
  | .jmpb r => [r]
  | .eq a b _ => [a, b]
  | .neq a b _ => [a, b]
  | .gt a b _ => [a, b]
  | .lt a b _ => [a, b]
  | .gtq a b _ => [a, b]
  | .ltq a b _ => [a, b]
  | .jeq r => [r]
  | .aloc _ => []
  | .illegal _ => []

/-- The bytes of an instruction shown as one number of `nbits` bits, `B0` the most significant byte (R6,
R87), then zero bytes up to the longest instruction. -/
def tableBytes (nbits w : Nat) : List Byte :=
  let n := (nbits + 7) / 8
  (List.range n).map (fun k => BitVec.ofNat 8 (w >>> (8 * (n - 1 - k)))) ++ List.replicate (4 - n) 0#8

/-- The instruction the decoder reads from a word of spec/opcode_table.json. DEDUCED: the table's numbers
have `B0` on top (R6, R87), see log entry 6. -/
def decodeTableWord (nbits w : Nat) : Option Instr :=
  match decode (tableBytes nbits w) with
  | .ok (i, _) => some i
  | .error _ => none

end Sys2Proof
end

