-- ==== Sys2Proof/Config.lean ====
section
/-! DEFINITION. The open parameters of 00_scope.md R5. No instruction reads this structure: a state made
by `State.resetFor` carries NREG as the length of its register file and PROG_CAP as a field, and the
assembler takes ILLEGAL_BYTE as an argument. So one step function serves every parameter choice, and a
statement about every state is a statement about every choice (log entry 1). -/

namespace Sys2Proof

/-- One choice of the parameters that R5 marks OPEN. -/
structure Config where
  /-- `NREG`, the number of general registers. -/
  nreg : Nat
  /-- `PROG_CAP`, the capacity of the program buffer in bytes. -/
  progCap : Nat
  /-- `ILLEGAL_BYTE`, what the toolchain emits for ILLEGAL. The decoder does not depend on it. -/
  illegalByte : Byte
deriving DecidableEq, Repr

/-- The constraints R5 puts on the open parameters. -/
def Config.wf (c : Config) : Bool :=
  decide (3 ≤ c.nreg ∧ c.nreg ≤ 256 ∧ 1 ≤ c.progCap ∧ c.progCap ≤ 2 ^ 31 - 1 ∧ 17 ≤ c.illegalByte.toNat)

/-- The suggested defaults of R5. PRESUMED: NREG 32 is general knowledge (93 K1), see log entry 1.
DESIGN CHOICE: R5 suggests no ILLEGAL_BYTE; 0xFF meets its constraint, see log entry 2. -/
def Config.suggested : Config := { nreg := 32, progCap := 65536, illegalByte := 0xFF#8 }

end Sys2Proof
end

