-- ==== Sys2Proof/Machine/State.lean ====
section
/-! DEFINITION. The state of the core, as plain data (10_state.md), its reset value, and why a step can
stop short of a next state. -/

namespace Sys2Proof.Machine

/-- The run status (R16). The 2-bit value 3 is never held and is not represented. -/
inductive Status where
  | run
  /-- A HLT has executed; left only by `Reset`. -/
  | halt
  /-- A fault has been raised; left only by `Reset`. -/
  | fault
deriving DecidableEq, Repr

/-- The fault cause (R17, 60_exceptions.md R160). The 4-bit values 6 to 15 are never held. -/
inductive Cause where
  | none
  | illegalOpcode
  | divByZero
  | divOverflow
  | regIndex
  | pcRange
deriving DecidableEq, Repr

/-- The outcome of the last step (00_scope.md R9, 40_step_and_dispatch.md R108). -/
inductive StopReason where
  | retired
  | eop
  | trunc
  | hlt
  | fault
  | terminal
deriving DecidableEq, Repr

/-- Why a step answers no next state. The faults of 60_exceptions.md are not here: they are next states
with `status` FAULT. -/
inductive Fault where
  /-- Raised by the fetch when an offset below `plen` holds no byte. The spec's buffer has no such offset
  (20_memory.md R40) and no state that meets the invariant does. Safe: the model stops. -/
  | programHole (offset : Nat)
deriving DecidableEq, Repr

/-- Why a step refuses an instruction. -/
inductive Refusal where
  /-- Raised by an arm of `exec` whose instruction has no meaning yet; no arm does. Safe. -/
  | notModelled (mnemonic : String)
deriving DecidableEq, Repr

/-- The bytes of the program buffer by offset, offsets strictly rising. An offset that is not listed
holds nothing (20_memory.md R40). -/
abbrev Memory := List Host.Cell

/-- Everything the spec gives the machine (10_state.md section 1). -/
structure State where
  /-- `x[0]` to `x[NREG-1]` (R10); NREG is the length. -/
  regs : List Word
  /-- Byte offset of the next instruction (R12). -/
  pc : Word
  /-- The equal flag `eq` (R14). -/
  eqFlag : Bool
  /-- The remainder register (R15). -/
  rem : Word
  status : Status
  cause : Cause
  /-- Offset of the faulting instruction, meaningful while `status` is FAULT (R18). -/
  faultPc : Word
  /-- Opcode byte of the faulting instruction, meaningful while `status` is FAULT (R19). -/
  faultOp : Byte
  /-- The program buffer (R20). -/
  prog : Memory
  /-- The number of bytes in the program buffer (R20). -/
  plen : Nat
  /-- The parameter PROG_CAP (00_scope.md R5); no transition writes it. -/
  progCap : Nat
  /-- The output latch `stop_reason` (R21, R108). -/
  stopReason : StopReason
deriving DecidableEq, Repr

/-- The state after `Reset` of a machine with these parameters (70_reset_and_hazards.md R180). -/
def State.resetFor (nreg progCap : Nat) : State :=
  { regs := List.replicate nreg 0#32, pc := 0#32, eqFlag := false, rem := 0#32,
    status := .run, cause := .none, faultPc := 0#32, faultOp := 0#8,
    prog := [], plen := 0, progCap := progCap, stopReason := .retired }

/-- The state after `Reset` of a machine with R5's suggested parameters (log entry 1). -/
def State.reset : State := State.resetFor Config.suggested.nreg Config.suggested.progCap

end Sys2Proof.Machine
end

