-- ==== Sys2Proof/Machine/Ops.lean ====
section
/-! DEFINITION. The named operations over the program buffer, the register file and the status registers,
among them taking a fault. There is no operation that returns from a fault: only `Reset` leaves the
FAULT status (60_exceptions.md R167). -/

namespace Sys2Proof.Machine

/-- What one step answers. -/
abbrev Result := Host.Outcome State Fault Refusal

/-! ### The program buffer -/

/-- What an offset that is not listed reads as: nothing (20_memory.md R40). -/
def Memory.unlisted : Option Byte := none

/-- `prog[a]`. -/
def Memory.read : Memory → Nat → Option Byte
  | [], _ => Memory.unlisted
  | (k, b) :: m, a => if k = a then some b else Memory.read m a

/-- Put a byte at an offset, keeping the offsets rising and one entry an offset. -/
def Memory.write : Memory → Nat → Byte → Memory
  | [], a, b => [(a, b)]
  | (k, c) :: m, a, b =>
    if a < k then (a, b) :: (k, c) :: m
    else if k = a then (a, b) :: m
    else (k, c) :: Memory.write m a b

/-- Put bytes at consecutive offsets. -/
def Memory.writeBytes : Memory → Nat → List Byte → Memory
  | m, _, [] => m
  | m, a, b :: bs => Memory.writeBytes (Memory.write m a b) (a + 1) bs

/-- The canonical form: offsets strictly rising. No entry can equal what an unlisted offset reads as. -/
abbrev Memory.wf (m : Memory) : Prop := m.Pairwise (fun c d => c.1 < d.1)

/-- The bytes at `n` consecutive offsets from `a`; `none` if one of them holds nothing. -/
def Memory.readBytes (m : Memory) (a : Nat) : Nat → Option (List Byte)
  | 0 => some []
  | n + 1 =>
    match Memory.read m a, Memory.readBytes m (a + 1) n with
    | some b, some bs => some (b :: bs)
    | _, _ => none

/-- `MemRead(addr, n)` of 20_memory.md R54: `n` bytes assembled big-endian (R41). -/
def Memory.readBE (m : Memory) (a n : Nat) : Option Nat :=
  (Memory.readBytes m a n).map (fun bs => bs.foldl (fun v b => v * 256 + b.toNat) 0)

/-! ### The register file -/

/-- The parameter NREG: the register file is never resized (10_state.md R10). -/
def State.nreg (s : State) : Nat := s.regs.length

/-- `x[i]`, defined for `i < NREG` (00_scope.md R8); every use is behind the check of R106. -/
def State.reg (s : State) (i : Nat) : Word := s.regs.getD i 0#32

/-- `x[i] <- v`. No register is hard-wired (10_state.md R10). -/
def State.setReg (s : State) (i : Nat) (v : Word) : State := { s with regs := s.regs.set i v }

/-- `rem <- v` (10_state.md R15). -/
def State.setRem (s : State) (v : Word) : State := { s with rem := v }

/-- `eq <- v` (10_state.md R14). -/
def State.setEq (s : State) (v : Bool) : State := { s with eqFlag := v }

/-! ### How a step ends -/

/-- Drive the output latches and change nothing else (40_step_and_dispatch.md R108). -/
def State.report (s : State) (r : StopReason) : State := { s with stopReason := r }

/-- The output `finished` of R108: 0 exactly when the last step RETIRED. -/
def State.finished (s : State) : Bool := decide (s.stopReason ≠ .retired)

/-- `retire(L)` of 00_scope.md R8: the instruction completes and `pc` moves past it. DESIGN CHOICE: in a
state that no step reaches, with `pc + L` above 2^32 - 1, the sum wraps (log entry 8). -/
def State.retire (s : State) (len : Nat) : State :=
  { s with pc := s.pc + BitVec.ofNat 32 len, stopReason := .retired }

/-- The instruction completes and sets `pc` itself. -/
def State.jumpTo (s : State) (t : Word) : State := { s with pc := t, stopReason := .retired }

/-- HLT's effect (43_control.md R135). -/
def State.halt (s : State) : State :=
  { s with pc := s.pc + 1#32, status := .halt, stopReason := .hlt }

/-- Taking a fault: exactly the writes of 60_exceptions.md R165. The saved pc is the offset of the opcode
byte, control goes nowhere, and only ILLEGAL_OPCODE moves `pc`. -/
def State.raiseFault (s : State) (c : Cause) (b0 : Byte) : State :=
  { s with
    faultPc := s.pc
    faultOp := b0
    cause := c
    status := .fault
    pc := if c = .illegalOpcode then s.pc + 1#32 else s.pc
    stopReason := .fault }

end Sys2Proof.Machine
end

