-- ==== Sys2Proof/Machine/Operands.lean ====
section
/-! DEFINITION. Operand forms: the readings of a 32-bit pattern (00_scope.md R7), the register index check
(30_encoding.md R67, 40_step_and_dispatch.md R106) and the target check of the jumps (43_control.md
R141). Every operand of this ISA is a register index, the 16-bit immediate of LOAD, or an ignored byte. -/

namespace Sys2Proof.Machine

/-- The two's-complement value of a register. -/
def sint (v : Word) : Int := v.toInt

/-- The unsigned value of a pattern. -/
def uint (v : Word) : Nat := v.toNat

/-- The pattern of an integer modulo 2^32. -/
def wrap32 (n : Int) : Word := BitVec.ofInt 32 n

/-- `zext_32` of a 16-bit immediate (30_encoding.md R68). -/
def zext32 (imm : BitVec 16) : Word := imm.setWidth 32

/-- The most negative register value, -2^31. -/
def intMin : Int := -2147483648

/-- Every register index is below NREG. -/
def State.regsOk (s : State) (fields : List Byte) : Bool := fields.all (fun i => decide (i.toNat < s.nreg))

/-- The register index check: with a bad index the instruction does not execute and REG_INDEX is raised
(R67, R106); otherwise `k` is the instruction's effect. -/
def withRegs (op : Op) (fields : List Byte) (s : State) (k : Result) : Result :=
  if s.regsOk fields then k else .next (s.raiseFault .regIndex op.code)

/-- A jump target computed over the integers, as a program counter; `none` outside [0, 2^32 - 1] (R141). -/
def pcTarget (t : Int) : Option Word :=
  if 0 ≤ t ∧ t ≤ 4294967295 then some (BitVec.ofInt 32 t) else none

/-- Go to a target, or raise PC_RANGE with `pc` unchanged (R141). -/
def takeJump (op : Op) (t : Int) (s : State) : Result :=
  match pcTarget t with
  | some p => .next (s.jumpTo p)
  | none => .next (s.raiseFault .pcRange op.code)

end Sys2Proof.Machine
end

