-- ==== Sys2Proof/Machine/Arith.lean ====
section
/-! DEFINITION. The meanings of ADD, SUB, MUL and DIV (42_arith.md). -/

namespace Sys2Proof.Machine

/-- A three-register operation on the signed values, keeping the low 32 bits of the exact result (R125). -/
def arith (op : Op) (f : Int → Int → Int) (a b d : Byte) (s : State) : Result :=
  withRegs op [a, b, d] s
    (.next ((s.setReg d.toNat (wrap32 (f (sint (s.reg a.toNat)) (sint (s.reg b.toNat))))).retire 4))

/-- ADD (R126). -/
def execAdd (a b d : Byte) (s : State) : Result := arith .add (fun x y => x + y) a b d s

/-- SUB: `a` minus `b` (R127). -/
def execSub (a b d : Byte) (s : State) : Result := arith .sub (fun x y => x - y) a b d s

/-- MUL: the low half of the product (R128). -/
def execMul (a b d : Byte) (s : State) : Result := arith .mul (fun x y => x * y) a b d s

/-- The quotient of DIV, rounded toward zero (R129). -/
def quotient (x y : Int) : Int := Int.tdiv x y

/-- The remainder of DIV, with the sign of the dividend (R129). -/
def remainder (x y : Int) : Int := x - quotient x y * y

/-- The effect of DIV once its indices are good: its two faults, each with `x[d]`, `rem` and `pc`
unwritten, or quotient and remainder (R129). -/
def divide (a b d : Byte) (s : State) : Result :=
  let x := sint (s.reg a.toNat)
  let y := sint (s.reg b.toNat)
  if y = 0 then .next (s.raiseFault .divByZero Op.div.code)
  else if x = intMin ∧ y = -1 then .next (s.raiseFault .divOverflow Op.div.code)
  else .next (((s.setReg d.toNat (wrap32 (quotient x y))).setRem (wrap32 (remainder x y))).retire 4)

/-- DIV (R129). -/
def execDiv (a b d : Byte) (s : State) : Result := withRegs .div [a, b, d] s (divide a b d s)

end Sys2Proof.Machine
end

