-- ==== Sys2Proof/Machine/Flags.lean ====
section
/-! DEFINITION. The one flag of the machine: the six relations that write it (44_compare.md R145 to R151) and
the one way they do. ADD, SUB, MUL and DIV write no flag (10_state.md R14). -/

namespace Sys2Proof.Machine

/-- Equality of the patterns (R146). -/
def relEq (v w : Word) : Bool := decide (v = w)

/-- Inequality of the patterns (R147). -/
def relNeq (v w : Word) : Bool := decide (v ≠ w)

/-- Signed greater than (R148). -/
def relGt (v w : Word) : Bool := decide (sint v > sint w)

/-- Signed less than (R149). -/
def relLt (v w : Word) : Bool := decide (sint v < sint w)

/-- Signed greater than or equal (R150). -/
def relGtq (v w : Word) : Bool := decide (sint v ≥ sint w)

/-- Signed less than or equal (R151). -/
def relLtq (v w : Word) : Bool := decide (sint v ≤ sint w)

/-- A comparison: check the two indices, write the flag to 0 or 1, advance by 4 (R145). The pad byte is
no argument: it has no effect. -/
def compare (op : Op) (rel : Word → Word → Bool) (a b : Byte) (s : State) : Result :=
  withRegs op [a, b] s (.next ((s.setEq (rel (s.reg a.toNat) (s.reg b.toNat))).retire 4))

end Sys2Proof.Machine
end

