-- ==== Sys2Proof/Machine/Compare.lean ====
section
/-! DEFINITION. The meanings of the six comparisons (44_compare.md). The last byte of each is the pad byte. -/

namespace Sys2Proof.Machine

/-- EQ (R146). -/
def execEq (a b _pad : Byte) (s : State) : Result := compare .eq relEq a b s

/-- NEQ (R147). -/
def execNeq (a b _pad : Byte) (s : State) : Result := compare .neq relNeq a b s

/-- GT (R148). -/
def execGt (a b _pad : Byte) (s : State) : Result := compare .gt relGt a b s

/-- LT (R149). -/
def execLt (a b _pad : Byte) (s : State) : Result := compare .lt relLt a b s

/-- GTQ (R150). -/
def execGtq (a b _pad : Byte) (s : State) : Result := compare .gtq relGtq a b s

/-- LTQ (R151). -/
def execLtq (a b _pad : Byte) (s : State) : Result := compare .ltq relLtq a b s

end Sys2Proof.Machine
end

