-- ==== Sys2Proof/Machine/Control.lean ====
section
/-! DEFINITION. The meanings of HLT and the four jumps (43_control.md). In a jump `pc` is the offset of its
own opcode byte; a relative distance counts from the byte after the jump, `pc + 2` (R140). -/

namespace Sys2Proof.Machine

/-- HLT (R135). -/
def execHlt (s : State) : Result := .next s.halt

/-- JMP: absolute (R136). -/
def execJmp (r : Byte) (s : State) : Result :=
  withRegs .jmp [r] s (takeJump .jmp (sint (s.reg r.toNat)) s)

/-- JMPF: forward by the register's signed value (R137). -/
def execJmpf (r : Byte) (s : State) : Result :=
  withRegs .jmpf [r] s (takeJump .jmpf (uint s.pc + 2 + sint (s.reg r.toNat)) s)

/-- JMPB: backward by the register's signed value (R138). -/
def execJmpb (r : Byte) (s : State) : Result :=
  withRegs .jmpb [r] s (takeJump .jmpb (uint s.pc + 2 - sint (s.reg r.toNat)) s)

/-- JEQ: absolute if the flag is set; the index is checked either way, the target only if taken (R139). -/
def execJeq (r : Byte) (s : State) : Result :=
  withRegs .jeq [r] s (if s.eqFlag then takeJump .jeq (sint (s.reg r.toNat)) s else .next (s.retire 2))

end Sys2Proof.Machine
end

