-- ==== Sys2Proof/Machine/Load.lean ====
section
/-! DEFINITION. The meaning of LOAD (41_load.md R120). -/

namespace Sys2Proof.Machine

/-- LOAD: the zero-extended immediate into `x[d]`. -/
def execLoad (d : Byte) (imm : BitVec 16) (s : State) : Result :=
  withRegs .load [d] s (.next ((s.setReg d.toNat (zext32 imm)).retire 4))

end Sys2Proof.Machine
end

