-- ==== Sys2Proof/Machine/Reserved.lean ====
section
/-! DEFINITION. The meanings of the reserved opcode ALOC and of ILLEGAL (45_reserved_and_illegal.md). -/

namespace Sys2Proof.Machine

/-- ALOC: a 2-byte no-operation, its operand byte ignored and unchecked (R155). -/
def execAloc (_ign : Byte) (s : State) : Result := .next (s.retire 2)

/-- ILLEGAL: takes ILLEGAL_OPCODE, recording the byte (R156). -/
def execIllegal (b0 : Byte) (s : State) : Result := .next (s.raiseFault .illegalOpcode b0)

end Sys2Proof.Machine
end

