-- ==== Sys2Proof/Machine/Dispatch.lean ====
section
/-! DEFINITION. One arm per instruction (40_step_and_dispatch.md R103). -/

namespace Sys2Proof.Machine

def exec (i : Instr) (s : State) : Host.Outcome State Fault Refusal :=
  match i with
  | .load d imm => Sys2Proof.Machine.execLoad d imm s
  | .add a b d => Sys2Proof.Machine.execAdd a b d s
  | .sub a b d => Sys2Proof.Machine.execSub a b d s
  | .mul a b d => Sys2Proof.Machine.execMul a b d s
  | .div a b d => Sys2Proof.Machine.execDiv a b d s
  | .hlt => Sys2Proof.Machine.execHlt s
  | .jmp r => Sys2Proof.Machine.execJmp r s
  | .jmpf r => Sys2Proof.Machine.execJmpf r s
  | .jmpb r => Sys2Proof.Machine.execJmpb r s
  | .eq a b pad => Sys2Proof.Machine.execEq a b pad s
  | .neq a b pad => Sys2Proof.Machine.execNeq a b pad s
  | .gt a b pad => Sys2Proof.Machine.execGt a b pad s
  | .lt a b pad => Sys2Proof.Machine.execLt a b pad s
  | .gtq a b pad => Sys2Proof.Machine.execGtq a b pad s
  | .ltq a b pad => Sys2Proof.Machine.execLtq a b pad s
  | .jeq r => Sys2Proof.Machine.execJeq r s
  | .aloc ign => Sys2Proof.Machine.execAloc ign s
  | .illegal b0 => Sys2Proof.Machine.execIllegal b0 s

end Sys2Proof.Machine
end

