-- ==== Sys2Proof/Machine/Fetch.lean ====
section
/-! DEFINITION. What a step does before an instruction executes: the status, end-of-program and completeness
checks and the fetch (40_step_and_dispatch.md R100 to R105, in the order of 60_exceptions.md R163). An
opcode byte of the ILLEGAL set has length 1, so the completeness check never holds it up. -/

namespace Sys2Proof.Machine

/-- What the fetch finds. -/
inductive Fetched where
  /-- Nothing executes and the step reports this outcome: TERMINAL, EOP or TRUNC. -/
  | idle (r : StopReason)
  /-- An offset below `plen` holds no byte; no state that meets the invariant comes here. -/
  | hole (offset : Nat)
  /-- The instruction at `pc`, wholly in the buffer. -/
  | instr (i : Instr)
deriving DecidableEq, Repr

/-- Read and decode the instruction whose opcode byte is `b0`. The decoder is given exactly `len(B0)`
bytes, so it never answers an error here. -/
def fetchBytes (s : State) (b0 : Byte) : Fetched :=
  match s.prog.readBytes s.pc.toNat (instrLen b0) with
  | none => .hole s.pc.toNat
  | some bs =>
    match decode bs with
    | .ok (i, _) => .instr i
    | .error _ => .hole s.pc.toNat

/-- The checks of R100, R101 and R104 in their order, and the fetch of R102 and R105. -/
def fetch (s : State) : Fetched :=
  if s.status ≠ .run then .idle .terminal
  else if s.plen ≤ s.pc.toNat then .idle .eop
  else
    match s.prog.read s.pc.toNat with
    | none => .hole s.pc.toNat
    | some b0 =>
      if s.plen < s.pc.toNat + instrLen b0 then .idle .trunc
      else fetchBytes s b0

end Sys2Proof.Machine
end

