-- ==== Sys2Proof/Machine/Step.lean ====
section
/-! DEFINITION. The `Step` transition (40_step_and_dispatch.md), and how an instruction is placed where the
next step fetches. -/

namespace Sys2Proof.Machine

/-- One step: fetch, then either report why nothing executes, or execute the instruction. -/
def step (s : State) : Host.Outcome State Fault Refusal :=
  match fetch s with
  | .idle r => .next (s.report r)
  | .hole a => .fault (.programHole a)
  | .instr i => exec i s

/-- The state with the instruction of a table word (`B0` on top, then zero bytes) in the program buffer at
`pc`, the buffer reaching past it and the status RUN. It stands for the host's `Append`s (70 R184); see
log entry 7. -/
def State.withFetchWord (s : State) (nbits w : Nat) : State :=
  { s with
    prog := s.prog.writeBytes s.pc.toNat (tableBytes nbits w)
    plen := max s.plen (s.pc.toNat + (tableBytes nbits w).length)
    status := .run }

end Sys2Proof.Machine
end

