-- ==== Sys2Proof/Machine/Assembler.lean ====
section
/-! DEFINITION. The toolchain side of the encoding, in scope by 00_scope.md R3 (e): one line of assembly, the
structured instruction it parses to, the encoder and its text form (30_encoding.md part 2). Text is a
list of characters. The hardware decodes bytes and knows nothing of this file. -/

namespace Sys2Proof.Machine

/-- The assembler's lexical units (R75). The last two exist in the source's token type and no rule of the
grammar produces them. A number's 32-bit pattern is never negative. -/
inductive Token where
  | operation (op : Opcode)
  | register (i : Byte)
  | number (n : Word)
  | directive (name : List Char)
  | labelDeclaration (name : List Char)
  | labelUsage (name : List Char)
deriving DecidableEq, Repr

/-- The structured instruction of R86. -/
structure AsmInstr where
  opcode : Option Opcode
  directive : Option (List Char)
  op1 : Option Token
  op2 : Option Token
  op3 : Option Token
deriving DecidableEq, Repr

/-- The encoding contract violations of R77: the opcode slot is empty, or an operand slot holds something
other than a Register or a Number. Safe: nothing is emitted. -/
inductive EncodeError where
  | noOpcode
  | badOperand
deriving DecidableEq, Repr

/-! ### Mnemonics -/

/-- The mnemonic of an opcode, its name in lower case (R76). -/
def mnemonic : Op → List Char
  | .load => ['l', 'o', 'a', 'd']
  | .add => ['a', 'd', 'd']
  | .sub => ['s', 'u', 'b']
  | .mul => ['m', 'u', 'l']
  | .div => ['d', 'i', 'v']
  | .hlt => ['h', 'l', 't']
  | .jmp => ['j', 'm', 'p']
  | .jmpf => ['j', 'm', 'p', 'f']
  | .jmpb => ['j', 'm', 'p', 'b']
  | .eq => ['e', 'q']
  | .neq => ['n', 'e', 'q']
  | .gt => ['g', 't']
  | .lt => ['l', 't']
  | .gtq => ['g', 't', 'q']
  | .ltq => ['l', 't', 'q']
  | .jeq => ['j', 'e', 'q']
  | .aloc => ['a', 'l', 'o', 'c']

/-- The seventeen defined operations. -/
def allOps : List Op :=
  [.load, .add, .sub, .mul, .div, .hlt, .jmp, .jmpf, .jmpb, .eq, .neq, .gt, .lt, .gtq, .ltq, .jeq, .aloc]

/-- `mnemonic_to_opcode` of R84: case-sensitive (R76) and total, an unrecognised name is ILLEGAL. -/
def mnemonicToOpcode (name : List Char) : Opcode :=
  match allOps.find? (fun op => decide (mnemonic op = name)) with
  | some op => .defined op
  | none => .illegal

/-! ### The grammar of R74 -/

/-- Space, tab, carriage return, line feed. -/
def isWs (c : Char) : Bool := c == ' ' || c == '\t' || c == '\r' || c == '\n'

/-- `a` to `z` and `A` to `Z`. -/
def isLetter (c : Char) : Bool :=
  (decide (97 ≤ c.toNat) && decide (c.toNat ≤ 122)) || (decide (65 ≤ c.toNat) && decide (c.toNat ≤ 90))

/-- `0` to `9`. -/
def isDigit (c : Char) : Bool := decide (48 ≤ c.toNat) && decide (c.toNat ≤ 57)

/-- The value of a digit sequence. -/
def digitsValue (ds : List Char) : Nat := ds.foldl (fun n c => n * 10 + (c.toNat - 48)) 0

/-- The `ws` of the grammar. -/
def skipWs (cs : List Char) : List Char := cs.dropWhile isWs

/-- A register token `$n` for n in 0..255, or a number token `#n` for n in 0..2147483647 (R75), and the
text after it. DEDUCED: a digit sequence is as long as it can be (log entry 15). -/
def parseOperand : List Char → Option (Token × List Char)
  | [] => none
  | c :: cs =>
    let ds := cs.takeWhile isDigit
    let n := digitsValue ds
    if ds.isEmpty then none
    else if c = '$' then
      if n ≤ 255 then some (.register (BitVec.ofNat 8 n), cs.dropWhile isDigit) else none
    else if c = '#' then
      if n ≤ 2147483647 then some (.number (BitVec.ofNat 32 n), cs.dropWhile isDigit) else none
    else none

/-- Up to `n` operands with the white space after each, and the text after them. -/
def parseOperands : Nat → List Char → List Token × List Char
  | 0, cs => ([], cs)
  | n + 1, cs =>
    match parseOperand cs with
    | none => ([], cs)
    | some (t, rest) =>
      let (ts, rest') := parseOperands n (skipWs rest)
      (t :: ts, rest')

/-- `letters ws` and up to three operands, consuming the whole text, or nothing (R74, R82). -/
def parseBody (cs : List Char) : Option (List Char × List Token) :=
  let name := cs.takeWhile isLetter
  if name.isEmpty then none
  else
    match parseOperands 3 (skipWs (cs.dropWhile isLetter)) with
    | (ts, []) => some (name, ts)
    | (_, _ :: _) => none

/-- Operands fill the slots in the order they were written (R74). -/
def AsmInstr.ofParts (opcode : Option Opcode) (directive : Option (List Char)) (ts : List Token) :
    AsmInstr :=
  { opcode := opcode, directive := directive, op1 := ts[0]?, op2 := ts[1]?, op3 := ts[2]? }

/-- One line of assembly to one structured instruction, or `none`, a parse failure (R74, R82). A `.` marks
a directive (R80). -/
def parseLine (line : List Char) : Option AsmInstr :=
  match skipWs line with
  | '.' :: cs => (parseBody cs).map (fun p => AsmInstr.ofParts none (some p.1) p.2)
  | cs => (parseBody cs).map (fun p => AsmInstr.ofParts (some (mnemonicToOpcode p.1)) none p.2)

/-! ### The encoder of R77 -/

/-- Register: its index. Number: the low 16 bits, high byte first (R77, R85). Absent: nothing. -/
def operandBytes : Option Token → Except EncodeError (List Byte)
  | none => .ok []
  | some (.register i) => .ok [i]
  | some (.number n) => .ok [n.extractLsb' 8 8, n.extractLsb' 0 8]
  | some (.operation _) => .error .badOperand
  | some (.directive _) => .error .badOperand
  | some (.labelDeclaration _) => .error .badOperand
  | some (.labelUsage _) => .error .badOperand

/-- `to_bytes` (R77); the parameter is ILLEGAL_BYTE. -/
def toBytes (illegalByte : Byte) (x : AsmInstr) : Except EncodeError (List Byte) :=
  match x.opcode with
  | none => .error .noOpcode
  | some op =>
    match operandBytes x.op1, operandBytes x.op2, operandBytes x.op3 with
    | .ok b1, .ok b2, .ok b3 => .ok (opcodeToByte illegalByte op :: (b1 ++ (b2 ++ b3)))
    | _, _, _ => .error .badOperand

/-- The lower-case hexadecimal digit of a value below 16. -/
def hexDigit (n : Nat) : Char := if n < 10 then Char.ofNat (48 + n) else Char.ofNat (87 + n)

/-- `to_hex` of emitted bytes: two lower-case digits for each (R83). -/
def toHex (bs : List Byte) : List (List Char) :=
  bs.map (fun b => [hexDigit (b.toNat / 16), hexDigit (b.toNat % 16)])

/-- A line to its bytes: `none` is a parse failure, `some (.error _)` an encoding contract violation. -/
def assemble (illegalByte : Byte) (line : List Char) : Option (Except EncodeError (List Byte)) :=
  (parseLine line).map (toBytes illegalByte)

/-! ### Canonical forms (R78) -/

/-- The decimal digits of a number below 100000, without leading zeros. -/
def decimal (n : Nat) : List Char :=
  let d (k : Nat) : Char := Char.ofNat (48 + k % 10)
  if n < 10 then [d n]
  else if n < 100 then [d (n / 10), d n]
  else if n < 1000 then [d (n / 100), d (n / 10), d n]
  else if n < 10000 then [d (n / 1000), d (n / 100), d (n / 10), d n]
  else [d (n / 10000), d (n / 1000), d (n / 100), d (n / 10), d n]

/-- A register token's text. -/
def regText (i : Byte) : List Char := ' ' :: '$' :: decimal i.toNat

/-- A number token's text. -/
def numText (imm : BitVec 16) : List Char := ' ' :: '#' :: decimal imm.toNat

/-- The line of an operation with its operand texts. -/
def lineOf (op : Op) (operands : List (List Char)) : List Char := mnemonic op ++ operands.flatten

/-- The canonical line of an instruction (R78): a comparison's pad operand is written `$0`, ILLEGAL has no
line. The spacing, one space before an operand, is that of R78's table. -/
def canonicalLine : Instr → Option (List Char)
  | .load d imm => some (lineOf .load [regText d, numText imm])
  | .add a b d => some (lineOf .add [regText a, regText b, regText d])
  | .sub a b d => some (lineOf .sub [regText a, regText b, regText d])
  | .mul a b d => some (lineOf .mul [regText a, regText b, regText d])
  | .div a b d => some (lineOf .div [regText a, regText b, regText d])
  | .hlt => some (lineOf .hlt [])
  | .jmp r => some (lineOf .jmp [regText r])
  | .jmpf r => some (lineOf .jmpf [regText r])
  | .jmpb r => some (lineOf .jmpb [regText r])
  | .eq a b _ => some (lineOf .eq [regText a, regText b, regText 0#8])
  | .neq a b _ => some (lineOf .neq [regText a, regText b, regText 0#8])
  | .gt a b _ => some (lineOf .gt [regText a, regText b, regText 0#8])
  | .lt a b _ => some (lineOf .lt [regText a, regText b, regText 0#8])
  | .gtq a b _ => some (lineOf .gtq [regText a, regText b, regText 0#8])
  | .ltq a b _ => some (lineOf .ltq [regText a, regText b, regText 0#8])
  | .jeq r => some (lineOf .jeq [regText r])
  | .aloc ign => some (lineOf .aloc [regText ign])
  | .illegal _ => none

/-- The instruction with the pad byte of a comparison as the canonical line writes it. -/
def zeroPad : Instr → Instr
  | .eq a b _ => .eq a b 0#8
  | .neq a b _ => .neq a b 0#8
  | .gt a b _ => .gt a b 0#8
  | .lt a b _ => .lt a b 0#8
  | .gtq a b _ => .gtq a b 0#8
  | .ltq a b _ => .ltq a b 0#8
  | .load d imm => .load d imm
  | .add a b d => .add a b d
  | .sub a b d => .sub a b d
  | .mul a b d => .mul a b d
  | .div a b d => .div a b d
  | .hlt => .hlt
  | .jmp r => .jmp r
  | .jmpf r => .jmpf r
  | .jmpb r => .jmpb r
  | .jeq r => .jeq r
  | .aloc ign => .aloc ign
  | .illegal b0 => .illegal b0

end Sys2Proof.Machine
end

