-- ==== Sys2Proof/Machine/Ports.lean ====
section
/-! DEFINITION. The host's side of the block: the four host transitions, the ports that cause them and the
ports that show the state (10_state.md R22 to R25, 20_memory.md R48 and R49, 70_reset_and_hazards.md
R180), running until finished (40_step_and_dispatch.md R109), and a run of a program (R196). -/

namespace Sys2Proof.Machine

/-! ### The register encodings a host sees -/

/-- The 2-bit code of the run status (R16). -/
def statusCode : Status → BitVec 2
  | .run => 0#2
  | .halt => 1#2
  | .fault => 2#2

/-- The 4-bit code of the fault cause (60_exceptions.md R160). -/
def causeCode : Cause → BitVec 4
  | .none => 0#4
  | .illegalOpcode => 1#4
  | .divByZero => 2#4
  | .divOverflow => 3#4
  | .regIndex => 4#4
  | .pcRange => 5#4

/-- The 3-bit code of the outcome of the last step (R108). -/
def stopReasonCode : StopReason → BitVec 3
  | .retired => 0#3
  | .eop => 1#3
  | .trunc => 2#3
  | .hlt => 3#3
  | .fault => 4#3
  | .terminal => 5#3

/-! ### The host transitions -/

/-- `Append(b)`: one byte at `plen` while there is room, else nothing (20_memory.md R48, R49). -/
def State.appendByte (s : State) (b : Byte) : State :=
  if s.plen < s.progCap then { s with prog := s.prog.write s.plen b, plen := s.plen + 1 } else s

/-- `VM.append_bytes`: a sequence of `Append`s, one per byte, in order (R48). -/
def State.appendBytes (s : State) (bs : List Byte) : State := bs.foldl State.appendByte s

/-- `SetReg(i, v)`: nothing happens with an index beyond the register file (10_state.md R25). -/
def State.hostSetReg (s : State) (i : Byte) (v : Word) : State :=
  if i.toNat < s.nreg then s.setReg i.toNat v else s

/-- `Reset` of this machine: every state element at its reset value, the parameters as they were (R180). -/
def State.hostReset (s : State) : State := State.resetFor s.nreg s.progCap

/-- The four labels of the transition system (10_state.md R23). -/
inductive Transition where
  | reset
  | append (b : Byte)
  | setReg (i : Byte) (v : Word)
  | step
deriving DecidableEq, Repr

/-- One labelled transition; each is atomic (R23). -/
def transition (l : Transition) (s : State) : Result :=
  match l with
  | .reset => .next s.hostReset
  | .append b => .next (s.appendByte b)
  | .setReg i v => .next (s.hostSetReg i v)
  | .step => Sys2Proof.Machine.step s

/-! ### The ports -/

/-- The input ports of R22; an edge of `clk` is one call of `clockEdge`. -/
structure Inputs where
  rst : Bool
  appendValid : Bool
  appendData : Byte
  step : Bool
  run : Bool
  setValid : Bool
  setIdx : Byte
  setData : Word
  dbgIdx : Byte
deriving DecidableEq, Repr

/-- The output ports of R22. -/
structure Outputs where
  appendReady : Bool
  finished : Bool
  stopReason : BitVec 3
  status : BitVec 2
  cause : BitVec 4
  faultPc : Word
  faultOp : Byte
  pc : Word
  plen : Word
  eq : Bool
  rem : Word
  dbgData : Word
  dbgValid : Bool
deriving DecidableEq, Repr

/-- The transition a clock edge causes, by the fixed priority of R23; `none` if nothing is requested. -/
def arbitrate (p : Inputs) : Option Transition :=
  if p.rst then some .reset
  else if p.appendValid then some (.append p.appendData)
  else if p.setValid then some (.setReg p.setIdx p.setData)
  else if p.step || p.run then some .step
  else none

/-- One rising clock edge (R22, R23). -/
def clockEdge (p : Inputs) (s : State) : Result :=
  match arbitrate p with
  | some l => transition l s
  | none => .next s

/-- The output ports in a state, with a debug register index applied: a read has no side effect (R24). -/
def outputs (dbgIdx : Byte) (s : State) : Outputs :=
  { appendReady := decide (s.plen < s.progCap)
    finished := s.finished
    stopReason := stopReasonCode s.stopReason
    status := statusCode s.status
    cause := causeCode s.cause
    faultPc := s.faultPc
    faultOp := s.faultOp
    pc := s.pc
    plen := BitVec.ofNat 32 s.plen
    eq := s.eqFlag
    rem := s.rem
    dbgData := if dbgIdx.toNat < s.nreg then s.reg dbgIdx.toNat else 0#32
    dbgValid := decide (dbgIdx.toNat < s.nreg) }

/-! ### Runs -/

/-- `Run` under fuel: step while `finished` is 0 (R109). -/
def runUntilFinished : Nat → State → Result
  | 0, s => .next s
  | fuel + 1, s =>
    match Sys2Proof.Machine.step s with
    | .next t => if t.finished then .next t else runUntilFinished fuel t
    | .fault f => .fault f
    | .refused r => .refused r

/-- A history: host transitions one after the other, in any order the host chooses (R23). -/
def runTransitions : List Transition → State → Result
  | [], s => .next s
  | l :: ls, s =>
    match transition l s with
    | .next t => runTransitions ls t
    | .fault f => .fault f
    | .refused r => .refused r

/-- The state in which a run's first step happens: `Reset`, the program's `Append`s, then the optional
`SetReg`s (70_reset_and_hazards.md R184, R196). -/
def runStart (nreg progCap : Nat) (program : List Byte) (sets : List (Byte × Word)) : State :=
  sets.foldl (fun s iv => s.hostSetReg iv.1 iv.2) ((State.resetFor nreg progCap).appendBytes program)

end Sys2Proof.Machine
end

