-- ==== Sys2Proof/Safety.lean ====
section
/-! DEFINITION. The terms claims use: what a run's end means, the invariant of the reachable states, and
what one state keeps of another. -/

namespace Sys2Proof.Machine

/-! ### Ends of a run (60_exceptions.md R164, 70_reset_and_hazards.md R196)

DESIGN CHOICE (log entry 20): R164 lets a model decide about a run that ends at EOP or TRUNC with the status
still RUN, and R196 calls it neither an error nor a success. Here it is neither a good end nor a bad one. -/

/-- The good end: the program halted (R164). A run that ends at EOP or TRUNC is no good end: DESIGN CHOICE,
log entry 20. -/
def State.goodEnd (s : State) : Bool := decide (s.status = .halt)

/-- The bad end: a fault was raised (R164). A run that ends at EOP or TRUNC is no bad end: DESIGN CHOICE,
log entry 20. -/
def State.badEnd (s : State) : Bool := decide (s.status = .fault)

/-! ### The invariant -/

/-- The parameters obey their constraints (00_scope.md R5). -/
def State.paramsOk (s : State) : Prop :=
  3 ≤ s.nreg ∧ s.nreg ≤ 256 ∧ 1 ≤ s.progCap ∧ s.progCap ≤ 2147483647

/-- The program buffer holds a byte at exactly the offsets below `plen`, within its capacity
(10_state.md R20). The canonical form of the memory follows. -/
def State.bufferOk (s : State) : Prop :=
  s.prog.map Prod.fst = List.range s.plen ∧ s.plen ≤ s.progCap

/-- `cause` is a fault's while `status` is FAULT and 0 otherwise (10_state.md R17). -/
def State.causeOk (s : State) : Prop := s.cause = .none ↔ s.status ≠ .fault

/-- Which opcode bytes a cause can go with (the `raised by` column of 60_exceptions.md R160). -/
def causeFits (c : Cause) (b0 : Byte) : Prop :=
  match c with
  | .none => False
  | .illegalOpcode => 17 ≤ b0.toNat
  | .divByZero => b0 = 4#8
  | .divOverflow => b0 = 4#8
  | .regIndex => b0.toNat ≤ 15 ∧ b0 ≠ 5#8
  | .pcRange => b0 = 6#8 ∨ b0 = 7#8 ∨ b0 = 8#8 ∨ b0 = 15#8

/-- The fault report is true: `fault_op` is the byte of the program at `fault_pc`, it can raise that cause,
and `pc` stands where R160 says (10_state.md R18, R19, 60_exceptions.md R160, R166). -/
def State.reportOk (s : State) : Prop :=
  s.status = .fault →
    s.prog.read s.faultPc.toNat = some s.faultOp ∧
    causeFits s.cause s.faultOp ∧
    s.pc = if s.cause = .illegalOpcode then s.faultPc + 1#32 else s.faultPc

/-- The invariant of the machine. -/
structure State.Inv (s : State) : Prop where
  params : s.paramsOk
  buffer : s.bufferOk
  cause : s.causeOk
  report : s.reportOk

/-! ### Which instruction writes what (10_state.md R11, R14) -/

/-- The one general register an instruction writes, if any: LOAD's and the arithmetic's `d`. -/
def destReg : Instr → Option Byte
  | .load d _ => some d
  | .add _ _ d => some d
  | .sub _ _ d => some d
  | .mul _ _ d => some d
  | .div _ _ d => some d
  | .hlt => none
  | .jmp _ => none
  | .jmpf _ => none
  | .jmpb _ => none
  | .eq _ _ _ => none
  | .neq _ _ _ => none
  | .gt _ _ _ => none
  | .lt _ _ _ => none
  | .gtq _ _ _ => none
  | .ltq _ _ _ => none
  | .jeq _ => none
  | .aloc _ => none
  | .illegal _ => none

/-- The instruction is one of the six comparisons. -/
def isComparison (i : Instr) : Bool := decide (9 ≤ (firstByte i).toNat ∧ (firstByte i).toNat ≤ 14)

/-! ### Frames: what `t` keeps of `s` -/

/-- No general register differs, and the register file has its size. -/
def SameRegs (s t : State) : Prop := t.nreg = s.nreg ∧ ∀ j, t.reg j = s.reg j

/-- At most register `d` differs. -/
def SameRegsBut (d : Nat) (s t : State) : Prop := t.nreg = s.nreg ∧ ∀ j, j ≠ d → t.reg j = s.reg j

/-- Every byte of the program buffer, its length and its capacity are as they were. -/
def SameProgram (s t : State) : Prop :=
  (∀ a, t.prog.read a = s.prog.read a) ∧ t.prog = s.prog ∧ t.plen = s.plen ∧ t.progCap = s.progCap

/-- The status register and the fault registers are as they were. -/
def SameReport (s t : State) : Prop :=
  t.status = s.status ∧ t.cause = s.cause ∧ t.faultPc = s.faultPc ∧ t.faultOp = s.faultOp

/-- `t` is `s` but perhaps for the output latch: nothing architectural changed (R21). -/
def SameArch (s t : State) : Prop := t = { s with stopReason := t.stopReason }

/-- `pc` moved on by `n`, over the integers, wherever that is a 32-bit offset. It always is when an
instruction is fetched in a state of the invariant (10_state.md R13: `pc` never wraps around); what the
model does in other states, log entry 8, no statement says. -/
def PcMoved (n : Nat) (s t : State) : Prop :=
  s.pc.toNat + n ≤ 4294967295 → t.pc.toNat = s.pc.toNat + n

/-- `t` is the state after the fault `c` of the instruction at `s`'s pc, opcode byte `b0`: the writes of
60_exceptions.md R165 and no other. -/
def FaultTaken (c : Cause) (b0 : Byte) (s t : State) : Prop :=
  t.faultPc = s.pc ∧ t.faultOp = b0 ∧ t.cause = c ∧ t.status = .fault ∧
  (c = .illegalOpcode → PcMoved 1 s t) ∧ (c ≠ .illegalOpcode → t.pc = s.pc) ∧
  t.stopReason = .fault ∧
  SameRegs s t ∧ t.eqFlag = s.eqFlag ∧ t.rem = s.rem ∧ SameProgram s t

/-- `t` is a state after `s` in which an instruction of `len` bytes retired without a jump and without
touching the status registers or the program buffer. -/
def Retired (len : Nat) (s t : State) : Prop :=
  PcMoved len s t ∧ t.stopReason = .retired ∧ SameReport s t ∧ SameProgram s t

/-- `t` is a state after `s` in which a jump retired: everything but `pc` and the output latch is as it
was. -/
def Jumped (s t : State) : Prop :=
  t.stopReason = .retired ∧ SameRegs s t ∧ t.eqFlag = s.eqFlag ∧ t.rem = s.rem ∧ SameReport s t ∧
  SameProgram s t

/-! ### Shapes that the instruction rules share -/

/-- An instruction of `len` bytes with opcode byte `b0` that is not wholly in the buffer gives the outcome
TRUNC and changes nothing else (40_step_and_dispatch.md R104). -/
def CutShort (b0 : Byte) (len : Nat) : Prop :=
  ∀ s : State, s.status = .run → s.pc.toNat < s.plen → s.prog.read s.pc.toNat = some b0 →
    s.plen < s.pc.toNat + len → Sys2Proof.Machine.step s = .next (s.report .trunc)

/-- The instruction takes the fault REG_INDEX when one of its register index fields names no register. -/
def FaultsOnBadIndex (i : Instr) (b0 : Byte) (fields : List Byte) (s : State) : Prop :=
  (∃ f ∈ fields, s.nreg ≤ f.toNat) → ∃ t, Sys2Proof.Machine.exec i s = .next t ∧ FaultTaken .regIndex b0 s t

/-- The rule of a wrapping arithmetic instruction (42_arith.md R125): encoding, result modulo 2^32, frame,
exceptions. -/
def ArithRule (mk : Byte → Byte → Byte → Instr) (b0 : Byte) (f : Int → Int → Int) : Prop :=
  CutShort b0 4 ∧ ∀ a b d : Byte, encode (mk a b d) = [b0, a, b, d] ∧ ∀ s : State,
    (a.toNat < s.nreg → b.toNat < s.nreg → d.toNat < s.nreg →
      ∃ t, Sys2Proof.Machine.exec (mk a b d) s = .next t ∧
        ((t.reg d.toNat).toNat : Int) = f (s.reg a.toNat).toInt (s.reg b.toNat).toInt % 4294967296 ∧
        SameRegsBut d.toNat s t ∧ t.eqFlag = s.eqFlag ∧ t.rem = s.rem ∧ Retired 4 s t) ∧
    FaultsOnBadIndex (mk a b d) b0 [a, b, d] s

/-- The rule of a comparison (44_compare.md R145): encoding, the flag written both ways, frame, exceptions,
the pad byte any value. -/
def CompareRule (mk : Byte → Byte → Byte → Instr) (b0 : Byte) (rel : Word → Word → Prop) : Prop :=
  CutShort b0 4 ∧ ∀ a b pad : Byte, encode (mk a b pad) = [b0, a, b, pad] ∧ ∀ s : State,
    (a.toNat < s.nreg → b.toNat < s.nreg →
      ∃ t, Sys2Proof.Machine.exec (mk a b pad) s = .next t ∧
        (t.eqFlag = true ↔ rel (s.reg a.toNat) (s.reg b.toNat)) ∧
        SameRegs s t ∧ t.rem = s.rem ∧ Retired 4 s t) ∧
    FaultsOnBadIndex (mk a b pad) b0 [a, b] s

/-- A jump that computes the target `target` over the integers: taken when a 32-bit offset, PC_RANGE
otherwise (43_control.md R141). -/
def JumpsTo (i : Instr) (b0 : Byte) (target : Int) (s : State) : Prop :=
  (0 ≤ target → target ≤ 4294967295 →
    ∃ t, Sys2Proof.Machine.exec i s = .next t ∧ (t.pc.toNat : Int) = target ∧ Jumped s t) ∧
  (target < 0 ∨ 4294967295 < target →
    ∃ t, Sys2Proof.Machine.exec i s = .next t ∧ FaultTaken .pcRange b0 s t)

/-- What a token of the encoder's domain emits, by arithmetic on its value (30_encoding.md R77); `none` for
a token the encoder rejects. -/
def emitted : Token → Option (List Byte)
  | .register i => some [i]
  | .number n => some [BitVec.ofNat 8 (n.toNat / 256), BitVec.ofNat 8 n.toNat]
  | .operation _ => none
  | .directive _ => none
  | .labelDeclaration _ => none
  | .labelUsage _ => none

/-- What the parser may put into an operand slot: nothing, a register, a number in range (30_encoding.md
R75, R86). -/
def slotOk : Option Token → Prop
  | none => True
  | some (.register _) => True
  | some (.number n) => n.toNat ≤ 2147483647
  | some (.operation _) => False
  | some (.directive _) => False
  | some (.labelDeclaration _) => False
  | some (.labelUsage _) => False

end Sys2Proof.Machine
end

