-- ==== Sys2Proof/Certificates/Slice0/Obligations.lean ====
section
/-! DEFINITION. The statements for the provers. Each docstring names the rule or section of spec/ it
formalises; where the rule is one of the spec's own decisions (92_eei_decisions.md), it names the
decision too. -/

open Sys2Proof Sys2Proof.Machine

/-! ### Encoding -/

/-- Decode and encode agree on every well-formed instruction, whatever bytes follow it: no bit of a field
is dropped (30_encoding.md sections 1 to 3). -/
def Obligations.DecodeOfEncode : Prop :=
  ∀ (i : Instr) (rest : List Byte), i.wf = true → decode (encode i ++ rest) = .ok (i, rest)

/-- What is decoded is well-formed and re-encodes to the very bytes that were read, so two byte sequences
never decode alike (30_encoding.md sections 1 to 4). -/
def Obligations.EncodeOfDecode : Prop :=
  ∀ (bs : List Byte) (i : Instr) (rest : List Byte), decode bs = .ok (i, rest) →
    i.wf = true ∧ encode i ++ rest = bs

/-- Words written out from the spec's encodings decode to what they stand for: one or more of each format
(30_encoding.md section 2, 95_test_vectors.md S1 to S4 and V-ASM). -/
def Obligations.SpecWordsDecode : Prop :=
  decode [0x00#8, 0x01#8, 0x03#8, 0xE8#8] = .ok (.load 1#8 1000#16, []) ∧
  decode [0x01#8, 0x00#8, 0x01#8, 0x02#8] = .ok (.add 0#8 1#8 2#8, []) ∧
  decode [0x04#8, 0x00#8, 0x01#8, 0x02#8] = .ok (.div 0#8 1#8 2#8, []) ∧
  decode [0x05#8, 0x00#8, 0x00#8, 0x00#8] = .ok (.hlt, [0#8, 0#8, 0#8]) ∧
  decode [0x08#8, 0x02#8] = .ok (.jmpb 2#8, []) ∧
  decode [0x09#8, 0x00#8, 0x01#8, 0xFF#8] = .ok (.eq 0#8 1#8 255#8, []) ∧
  decode [0x0D#8, 0x03#8, 0x01#8, 0x00#8] = .ok (.gtq 3#8 1#8 0#8, []) ∧
  decode [0x0F#8, 0x04#8] = .ok (.jeq 4#8, []) ∧
  decode [0x10#8, 0x07#8] = .ok (.aloc 7#8, []) ∧
  decode [0x64#8, 0x00#8] = .ok (.illegal 100#8, [0#8])

/-- R72: the length is a function of the opcode byte, by the spec's three sets, and it is what the decoder
consumes, whatever bytes follow. -/
def Obligations.LengthByOpcodeByte : Prop :=
  ∀ b0 : Byte,
    (b0.toNat ∈ [0, 1, 2, 3, 4, 9, 10, 11, 12, 13, 14] → instrLen b0 = 4) ∧
    (b0.toNat ∈ [6, 7, 8, 15, 16] → instrLen b0 = 2) ∧
    (b0.toNat = 5 ∨ 17 ≤ b0.toNat → instrLen b0 = 1) ∧
    ∀ (tail : List Byte) (i : Instr) (rest : List Byte), decode (b0 :: tail) = .ok (i, rest) →
      (b0 :: tail).drop (instrLen b0) = rest ∧ instrLen b0 ≤ (b0 :: tail).length

/-- R69: every byte from 17 up is a 1-byte ILLEGAL instruction, whatever follows, and raises
ILLEGAL_OPCODE; no byte value spells no instruction. -/
def Obligations.UndefinedBytesDecodeIllegal : Prop :=
  (∀ (b0 : Byte) (rest : List Byte), 17 ≤ b0.toNat → decode (b0 :: rest) = .ok (.illegal b0, rest) ∧
    ∀ s : State, ∃ t, exec (.illegal b0) s = .next t ∧ t.status = .fault ∧ t.cause = .illegalOpcode) ∧
  ∀ b0 b1 b2 b3 : Byte, ∃ i rest, decode [b0, b1, b2, b3] = .ok (i, rest)

/-- The decoder rejects by name exactly the inputs that hold no whole instruction (30_encoding.md
section 1). -/
def Obligations.ShortInputRejected : Prop :=
  decode [] = .error .noBytes ∧
  ∀ (b0 : Byte) (rest : List Byte),
    (decode (b0 :: rest) = .error (.truncated b0) ↔ rest.length + 1 < instrLen b0)

/-- The round-trip law of the opcode table, for the defined opcodes and, with ILLEGAL_BYTE in its range,
for ILLEGAL, which is the spec's own inference (30_encoding.md section 2). -/
def Obligations.OpcodeMapRoundTrip : Prop :=
  ∀ (illegalByte : Byte) (op : Opcode), 17 ≤ illegalByte.toNat →
    byteToOpcode (opcodeToByte illegalByte op) = op

/-! ### The assembler -/

/-- The canonical line of an instruction parses and assembles to the instruction's own encoding, a
comparison's pad byte being 0 (30_encoding.md section 7, the table of canonical forms). The line's
spacing and numerals are the model's choice, log entry 18, and reading a run of letters or digits whole is its
inference, log entry 15. -/
def Obligations.CanonicalLinesAssemble : Prop :=
  ∀ (illegalByte : Byte) (i : Instr) (line : List Char), canonicalLine i = some line →
    assemble illegalByte line = some (.ok (encode (zeroPad i)))

/-- R77: the encoder emits the opcode byte and then each populated operand in order, 1 to 7 bytes, and
reports an error exactly for an empty opcode slot or an operand that is neither a Register nor a Number. -/
def Obligations.EncoderEmitsOperands : Prop :=
  ∀ (illegalByte : Byte) (x : AsmInstr),
    (x.opcode = none → toBytes illegalByte x = .error .noOpcode) ∧
    ∀ op, x.opcode = some op →
      ((∃ tok, (x.op1 = some tok ∨ x.op2 = some tok ∨ x.op3 = some tok) ∧ emitted tok = none) →
        toBytes illegalByte x = .error .badOperand) ∧
      ∀ b1 b2 b3,
        x.op1.elim (some []) emitted = some b1 → x.op2.elim (some []) emitted = some b2 →
        x.op3.elim (some []) emitted = some b3 →
        toBytes illegalByte x = .ok (opcodeToByte illegalByte op :: (b1 ++ b2 ++ b3)) ∧
        (b1 ++ b2 ++ b3).length ≤ 6

/-- R86, with R75's token ranges: a parsed line has exactly one of opcode and directive, and its operand
slots hold registers and numbers only; and the rule's two examples. -/
def Obligations.ParsedInstructionShape : Prop :=
  (∀ (line : List Char) (x : AsmInstr), parseLine line = some x →
    (x.opcode.isSome = !x.directive.isSome) ∧ slotOk x.op1 ∧ slotOk x.op2 ∧ slotOk x.op3) ∧
  parseLine ['l', 'o', 'a', 'd', ' ', '$', '1', ' ', '#', '1', '0', '0', '0'] =
    some ⟨some (.defined .load), none, some (.register 1#8), some (.number 1000#32), none⟩ ∧
  parseLine ['h', 'l', 't', '\n'] = some ⟨some (.defined .hlt), none, none, none, none⟩

/-- A parsed plain line always encodes, to 1 byte at least and 7 at most; a directive never does
(30_encoding.md sections 5 and 6). -/
def Obligations.ParsedLinesEncode : Prop :=
  ∀ (illegalByte : Byte) (line : List Char) (x : AsmInstr), parseLine line = some x →
    (x.directive = none → ∃ bs, toBytes illegalByte x = .ok bs ∧ 1 ≤ bs.length ∧ bs.length ≤ 7) ∧
    (x.directive.isSome = true → toBytes illegalByte x = .error .noOpcode)

/-! ### Reset -/

/-- `Reset`, which `rst` causes at a clock edge whatever else is requested, puts every state element at its
reset value from any state and empties the program buffer (70_reset_and_hazards.md section 1, 10_state.md
section 2). That NREG and PROG_CAP stay is the model's inference, log entry 17. That `eq`, `rem` and the fault registers reset to 0 is the spec's decision D19. -/
def Obligations.ResetLeaves : Prop :=
  ∀ s : State, ∃ t, transition .reset s = .next t ∧ (∀ p : Inputs, p.rst = true → clockEdge p s = .next t) ∧
    t.nreg = s.nreg ∧ (∀ i, t.reg i = 0#32) ∧ t.pc = 0#32 ∧ t.eqFlag = false ∧ t.rem = 0#32 ∧
    t.status = .run ∧ t.cause = .none ∧ t.faultPc = 0#32 ∧ t.faultOp = 0#8 ∧ t.plen = 0 ∧
    (∀ a, t.prog.read a = none) ∧ t.progCap = s.progCap ∧ t.finished = false ∧ t.stopReason = .retired

/-- The state after reset meets the invariant, for every choice of the parameters that 00_scope.md R5
allows; `State.reset`, whose parameters are the suggested ones (log entry 1), is one of them. -/
def Obligations.ResetMeetsInvariant : Prop :=
  (∀ nreg progCap : Nat, 3 ≤ nreg → nreg ≤ 256 → 1 ≤ progCap → progCap ≤ 2147483647 →
    (State.resetFor nreg progCap).Inv) ∧
  State.reset.Inv

/-! ### The step -/

/-- A step runs the decoded instruction: when the bytes at `pc` are in the buffer and decode to `i` with
none left over, the step is `exec i` at that state, and nothing is added around it (40_step_and_dispatch.md
section 1). -/
def Obligations.StepExecutesDecoded : Prop :=
  ∀ (s : State) (bs : List Byte) (i : Instr), s.status = .run →
    s.prog.readBytes s.pc.toNat bs.length = some bs → s.pc.toNat + bs.length ≤ s.plen →
    decode bs = .ok (i, []) → step s = exec i s

/-- R100: in HALT and in FAULT a step changes no state and reports TERMINAL (decision D14). -/
def Obligations.StoppedMachineStays : Prop :=
  ∀ s : State, s.status = .halt ∨ s.status = .fault →
    step s = .next (s.report .terminal) ∧ SameArch s (s.report .terminal) ∧
    (s.report .terminal).finished = true

/-- R101: with `pc` at or beyond `plen` a step changes no state and reports EOP; the status stays RUN, and
once the host has appended past `pc` the next step does not report EOP (decision D14). -/
def Obligations.EndOfProgramReported : Prop :=
  ∀ s : State, s.status = .run → s.plen ≤ s.pc.toNat →
    step s = .next (s.report .eop) ∧ SameArch s (s.report .eop) ∧
    (s.report .eop).finished = true ∧ (s.report .eop).status = .run ∧
    ∀ (bs : List Byte) (t : State), s.pc.toNat < (s.appendBytes bs).plen →
      step (s.appendBytes bs) = .next t → t.stopReason ≠ .eop

/-- A defined opcode whose instruction is not wholly in the buffer executes nothing, changes no
state and reports TRUNC (40_step_and_dispatch.md section 2, decision D15); it cannot happen to a 1-byte instruction. -/
def Obligations.IncompleteInstructionReported : Prop :=
  (∀ op : Op, CutShort op.code op.format.length ∧ (op.format.length = 1 ↔ op = .hlt)) ∧
  ∀ s t : State, step s = .next t → t.stopReason = .trunc → s.status = .run →
    SameArch s t ∧ t.finished = true ∧
    ∃ b0, s.prog.read s.pc.toNat = some b0 ∧ 2 ≤ instrLen b0 ∧ s.plen < s.pc.toNat + instrLen b0

/-- The outcome of a step is decided by the first check that applies, in the order of 60_exceptions.md
section 3 (decision D18): status, end of program, illegal opcode, completeness, register index, and then
the instruction itself. -/
def Obligations.OutcomeFollowsPriority : Prop :=
  ∀ s t : State, s.Inv → step s = .next t →
    (t.stopReason = .terminal ↔ s.status ≠ .run) ∧
    (t.stopReason = .eop ↔ s.status = .run ∧ s.plen ≤ s.pc.toNat) ∧
    (s.status = .run → s.pc.toNat < s.plen → ∃ b0, s.prog.read s.pc.toNat = some b0 ∧
      (17 ≤ b0.toNat → FaultTaken .illegalOpcode b0 s t) ∧
      (t.stopReason = .trunc ↔ s.plen < s.pc.toNat + instrLen b0) ∧
      ∀ i rest, (∃ bs, s.prog.readBytes s.pc.toNat (instrLen b0) = some bs ∧ decode bs = .ok (i, rest)) →
        s.pc.toNat + instrLen b0 ≤ s.plen → (∃ f ∈ regFields i, s.nreg ≤ f.toNat) →
        FaultTaken .regIndex b0 s t)

/-- The fetch reads the LOAD immediate big-endian: a step on the bytes `00 d hi lo` loads 256 times the
byte at `pc + 2` and the byte at `pc + 3` (20_memory.md sections 2 and 4). -/
def Obligations.LoadReadsBigEndian : Prop :=
  ∀ (s : State) (d hi lo : Byte), s.status = .run → s.pc.toNat + 4 ≤ s.plen →
    s.prog.readBytes s.pc.toNat 4 = some [0#8, d, hi, lo] → d.toNat < s.nreg →
    s.prog.readBE (s.pc.toNat + 2) 2 = some (hi.toNat * 256 + lo.toNat) ∧
    ∃ t, step s = .next t ∧ (t.reg d.toNat).toNat = hi.toNat * 256 + lo.toNat

/-- What a step finds depends, in the program buffer, on the four offsets from `pc` alone
(20_memory.md section 4: a step reads between 0 and 4 bytes). -/
def Obligations.FetchReadsFourBytesAtMost : Prop :=
  ∀ (s : State) (m : Memory),
    (∀ a, s.pc.toNat ≤ a → a < s.pc.toNat + 4 → m.read a = s.prog.read a) →
    fetch { s with prog := m } = fetch s

/-! ### The instructions -/

/-- R120, LOAD: encoding, the zero-extended immediate, frame, exceptions. -/
def Obligations.LoadWritesImmediate : Prop :=
  CutShort 0x00#8 4 ∧ ∀ (d : Byte) (imm : BitVec 16),
    (∃ hi lo : Byte, encode (.load d imm) = [0x00#8, d, hi, lo] ∧ imm.toNat = hi.toNat * 256 + lo.toNat) ∧
    ∀ s : State,
      (d.toNat < s.nreg →
        ∃ t, exec (.load d imm) s = .next t ∧ (t.reg d.toNat).toNat = imm.toNat ∧
          0 ≤ (t.reg d.toNat).toInt ∧ SameRegsBut d.toNat s t ∧ t.eqFlag = s.eqFlag ∧ t.rem = s.rem ∧
          Retired 4 s t) ∧
      FaultsOnBadIndex (.load d imm) 0x00#8 [d] s

/-- R126, ADD; that overflow wraps without a fault is decision D6. -/
def Obligations.AddWrapsSum : Prop := ArithRule Instr.add 0x01#8 (fun x y => x + y)

/-- R127, SUB, the first register minus the second; that overflow wraps is decision D6. -/
def Obligations.SubWrapsDifference : Prop := ArithRule Instr.sub 0x02#8 (fun x y => x - y)

/-- R128, MUL, the low 32 bits of the product; that overflow wraps is decision D6. -/
def Obligations.MulKeepsLowProduct : Prop := ArithRule Instr.mul 0x03#8 (fun x y => x * y)

/-- R129, DIV: the index check first, then the two faults, each writing nothing but the report (decisions
D7, D8), else the quotient rounded toward zero and the remainder's pattern (decision D9). -/
def Obligations.DivWritesQuotientAndRemainder : Prop :=
  CutShort 0x04#8 4 ∧ ∀ a b d : Byte, encode (.div a b d) = [0x04#8, a, b, d] ∧ ∀ s : State,
    (a.toNat < s.nreg → b.toNat < s.nreg → d.toNat < s.nreg →
      ((s.reg b.toNat).toInt = 0 →
        ∃ t, exec (.div a b d) s = .next t ∧ FaultTaken .divByZero 0x04#8 s t) ∧
      ((s.reg a.toNat).toInt = -2147483648 → (s.reg b.toNat).toInt = -1 →
        ∃ t, exec (.div a b d) s = .next t ∧ FaultTaken .divOverflow 0x04#8 s t) ∧
      ((s.reg b.toNat).toInt ≠ 0 →
        ¬((s.reg a.toNat).toInt = -2147483648 ∧ (s.reg b.toNat).toInt = -1) →
        ∃ t, exec (.div a b d) s = .next t ∧
          (t.reg d.toNat).toInt = Int.tdiv (s.reg a.toNat).toInt (s.reg b.toNat).toInt ∧
          (t.rem.toNat : Int) =
            ((s.reg a.toNat).toInt -
              Int.tdiv (s.reg a.toNat).toInt (s.reg b.toNat).toInt * (s.reg b.toNat).toInt) % 4294967296 ∧
          SameRegsBut d.toNat s t ∧ t.eqFlag = s.eqFlag ∧ Retired 4 s t)) ∧
    FaultsOnBadIndex (.div a b d) 0x04#8 [a, b, d] s

/-- In every DIV that retires, `A = Q * B + R`, `|R| < |B|`, and R is 0 or has the sign of A: the spec's
own inference below the table of 42_arith.md section 2 (from decision D9). -/
def Obligations.DivisionLaw : Prop :=
  ∀ (a b d : Byte) (s t : State), exec (.div a b d) s = .next t → t.stopReason = .retired →
    (s.reg a.toNat).toInt = (t.reg d.toNat).toInt * (s.reg b.toNat).toInt + t.rem.toInt ∧
    |t.rem.toInt| < |(s.reg b.toNat).toInt| ∧
    (t.rem.toInt = 0 ∨ (0 < t.rem.toInt ↔ 0 < (s.reg a.toNat).toInt))

/-- R135, HLT: `pc` past the one byte, the status HALT, no fault register, flag or register written, and
every later step reports TERMINAL and changes nothing. -/
def Obligations.HaltStopsMachine : Prop :=
  encode .hlt = [0x05#8] ∧ ∀ s : State, ∃ t, exec .hlt s = .next t ∧
    PcMoved 1 s t ∧ t.status = .halt ∧ t.stopReason = .hlt ∧ t.finished = true ∧
    t.cause = s.cause ∧ t.faultPc = s.faultPc ∧ t.faultOp = s.faultOp ∧
    SameRegs s t ∧ t.eqFlag = s.eqFlag ∧ t.rem = s.rem ∧ SameProgram s t ∧
    step t = .next (t.report .terminal)

/-- R136, JMP: the absolute target is the register's signed value; a negative one is PC_RANGE (D10). -/
def Obligations.JmpGoesToRegister : Prop :=
  CutShort 0x06#8 2 ∧ ∀ r : Byte, encode (.jmp r) = [0x06#8, r] ∧ ∀ s : State,
    (r.toNat < s.nreg → JumpsTo (.jmp r) 0x06#8 (s.reg r.toNat).toInt s) ∧
    FaultsOnBadIndex (.jmp r) 0x06#8 [r] s

/-- JMPF: forward from the byte after the jump by a signed distance; out of range is PC_RANGE (D10). That
the distance counts from `pc + 2` is the spec's own inference, D11 (43_control.md section 2). -/
def Obligations.JmpfAddsDistance : Prop :=
  CutShort 0x07#8 2 ∧ ∀ r : Byte, encode (.jmpf r) = [0x07#8, r] ∧ ∀ s : State,
    (r.toNat < s.nreg → JumpsTo (.jmpf r) 0x07#8 (s.pc.toNat + 2 + (s.reg r.toNat).toInt) s) ∧
    FaultsOnBadIndex (.jmpf r) 0x07#8 [r] s

/-- JMPB: backward from the byte after the jump by a signed distance; out of range is PC_RANGE (D10). That
the distance counts from `pc + 2` is the spec's own inference, D11 (43_control.md section 2). -/
def Obligations.JmpbSubtractsDistance : Prop :=
  CutShort 0x08#8 2 ∧ ∀ r : Byte, encode (.jmpb r) = [0x08#8, r] ∧ ∀ s : State,
    (r.toNat < s.nreg → JumpsTo (.jmpb r) 0x08#8 (s.pc.toNat + 2 - (s.reg r.toNat).toInt) s) ∧
    FaultsOnBadIndex (.jmpb r) 0x08#8 [r] s

/-- R139, JEQ: an absolute jump if the flag is set, else on to the next instruction whatever the register
holds; the index is checked either way (D27). -/
def Obligations.JeqFollowsFlag : Prop :=
  CutShort 0x0F#8 2 ∧ ∀ r : Byte, encode (.jeq r) = [0x0F#8, r] ∧ ∀ s : State,
    (r.toNat < s.nreg → s.eqFlag = true → JumpsTo (.jeq r) 0x0F#8 (s.reg r.toNat).toInt s) ∧
    (r.toNat < s.nreg → s.eqFlag = false →
      ∃ t, exec (.jeq r) s = .next t ∧ PcMoved 2 s t ∧ Jumped s t) ∧
    FaultsOnBadIndex (.jeq r) 0x0F#8 [r] s

/-- R146 and R147, EQ and NEQ: equality and inequality of the 32-bit patterns. -/
def Obligations.EqualityComparisonsWriteFlag : Prop :=
  CompareRule Instr.eq 0x09#8 (fun v w => v = w) ∧
  CompareRule Instr.neq 0x0A#8 (fun v w => v ≠ w)

/-- R148 to R151, GT, LT, GTQ and LTQ: signed order (decision D12). -/
def Obligations.OrderComparisonsWriteFlag : Prop :=
  CompareRule Instr.gt 0x0B#8 (fun v w => v.toInt > w.toInt) ∧
  CompareRule Instr.lt 0x0C#8 (fun v w => v.toInt < w.toInt) ∧
  CompareRule Instr.gtq 0x0D#8 (fun v w => v.toInt ≥ w.toInt) ∧
  CompareRule Instr.ltq 0x0E#8 (fun v w => v.toInt ≤ w.toInt)

/-- R155, ALOC: two bytes on and nothing else, for every operand byte (decision D13). -/
def Obligations.AlocOnlyAdvances : Prop :=
  CutShort 0x10#8 2 ∧ ∀ ign : Byte, encode (.aloc ign) = [0x10#8, ign] ∧ ∀ s : State,
    ∃ t, exec (.aloc ign) s = .next t ∧ SameRegs s t ∧ t.eqFlag = s.eqFlag ∧ t.rem = s.rem ∧ Retired 2 s t

/-- ILLEGAL takes ILLEGAL_OPCODE with the byte and its offset recorded and `pc` one past it; that `pc`
moves is the spec's own inference (45_reserved_and_illegal.md, the sentence on the state written). -/
def Obligations.IllegalTakesFault : Prop :=
  ∀ b0 : Byte, 17 ≤ b0.toNat → encode (.illegal b0) = [b0] ∧ ∀ s : State,
    ∃ t, exec (.illegal b0) s = .next t ∧ FaultTaken .illegalOpcode b0 s t ∧ t.finished = true

/-! ### Rules about all instructions -/

/-- R106: a register index field that names no register raises REG_INDEX and nothing of the instruction
executes, whichever instruction it is and before any other check of its own (decisions D3, D18). -/
def Obligations.BadRegisterIndexFaults : Prop :=
  ∀ (i : Instr) (s : State), FaultsOnBadIndex i (firstByte i) (regFields i) s

/-- R70: the pad byte of a comparison and ALOC's operand byte have no effect. -/
def Obligations.IgnoredBytesHaveNoEffect : Prop :=
  ∀ (a b p q : Byte) (s : State),
    exec (.eq a b p) s = exec (.eq a b q) s ∧ exec (.neq a b p) s = exec (.neq a b q) s ∧
    exec (.gt a b p) s = exec (.gt a b q) s ∧ exec (.lt a b p) s = exec (.lt a b q) s ∧
    exec (.gtq a b p) s = exec (.gtq a b q) s ∧ exec (.ltq a b p) s = exec (.ltq a b q) s ∧
    exec (.aloc p) s = exec (.aloc q) s

/-- R165: an instruction that faults writes `status`, `cause`, `fault_pc`, `fault_op` (and `pc` for
ILLEGAL_OPCODE), with a cause it can raise, and nothing else (decisions D16, D17). -/
def Obligations.FaultWritesOnlyReport : Prop :=
  ∀ (i : Instr) (s t : State), i.wf = true → exec i s = .next t → t.stopReason = .fault →
    ∃ c, causeFits c (firstByte i) ∧ FaultTaken c (firstByte i) s t

/-- An instruction writes no general register but its destination field's, and only when it retires
(10_state.md section 2, which registers each instruction writes). -/
def Obligations.OnlyDestinationWritten : Prop :=
  ∀ (i : Instr) (s t : State), exec i s = .next t →
    (destReg i = none → SameRegs s t) ∧
    (∀ d, destReg i = some d → SameRegsBut d.toNat s t) ∧
    (t.stopReason ≠ .retired → SameRegs s t)

/-- No instruction reads or writes a register it does not name: changing such a register before the
instruction changes that register after it, and nothing else. -/
def Obligations.UnnamedRegistersIrrelevant : Prop :=
  ∀ (i : Instr) (s : State) (k : Nat) (v : Word), (∀ f ∈ regFields i, f.toNat ≠ k) →
    ∃ t, exec i s = .next t ∧ exec i (s.setReg k v) = .next (t.setReg k v)

/-- The equal flag is written by a comparison that retires and by nothing else (10_state.md section 4). -/
def Obligations.OnlyComparisonsWriteFlag : Prop :=
  ∀ (i : Instr) (s t : State), exec i s = .next t → t.eqFlag ≠ s.eqFlag →
    isComparison i = true ∧ t.stopReason = .retired

/-- The remainder register is written by a DIV that retires and by nothing else (10_state.md
section 5). -/
def Obligations.OnlyDivWritesRemainder : Prop :=
  ∀ (i : Instr) (s t : State), exec i s = .next t → t.rem ≠ s.rem →
    (∃ a b d, i = .div a b d) ∧ t.stopReason = .retired

/-- The status register is written by HLT and by faults only, and the fault registers by faults only
(10_state.md section 5, 60_exceptions.md section 1). -/
def Obligations.OnlyHaltAndFaultsWriteStatus : Prop :=
  ∀ (i : Instr) (s t : State), exec i s = .next t →
    (t.stopReason = .fault ∧ t.status = .fault) ∨
    (t.stopReason = .hlt ∧ i = .hlt ∧ t.status = .halt ∧
      t.cause = s.cause ∧ t.faultPc = s.faultPc ∧ t.faultOp = s.faultOp) ∨
    (t.stopReason = .retired ∧ SameReport s t)

/-- No step writes the program buffer (10_state.md section 6, 20_memory.md section 1). -/
def Obligations.StepsNeverWriteProgram : Prop :=
  ∀ s t : State, step s = .next t → SameProgram s t

/-! ### The invariant -/

/-- Every step keeps the invariant, from every state that meets it: the parameters' constraints, a buffer
that holds exactly the offsets below `plen`, a cause exactly while the status is FAULT, and a fault report
that is true of the program (10_state.md sections 5 and 6, 60_exceptions.md sections 1 and 4). -/
def Obligations.StepKeepsInvariant : Prop :=
  ∀ s t : State, s.Inv → step s = .next t → t.Inv

/-- From a state that meets the invariant every step answers a next state: the step is total
(40_step_and_dispatch.md section 2, the step is a function of the state). -/
def Obligations.StepAlwaysAnswers : Prop :=
  ∀ s : State, s.Inv → ∃ t, step s = .next t

/-- From reset, with any parameters the spec allows, every history of host transitions runs through, ends
in a state that meets the invariant, and leaves the parameters as they were (10_state.md section 8, log
entry 17). -/
def Obligations.HistoriesKeepInvariant : Prop :=
  ∀ nreg progCap : Nat, 3 ≤ nreg → nreg ≤ 256 → 1 ≤ progCap → progCap ≤ 2147483647 →
    ∀ ls : List Transition, ∃ t, runTransitions ls (State.resetFor nreg progCap) = .next t ∧
      t.Inv ∧ t.nreg = nreg ∧ t.progCap = progCap

/-- Every host transition keeps the buffer's canonical form (offsets strictly rising, one entry each), in
every state that has it. The form is the model's (log entry 3). -/
def Obligations.TransitionsKeepMemoryForm : Prop :=
  ∀ (l : Transition) (s t : State), Memory.wf s.prog → transition l s = .next t → Memory.wf t.prog

/-- The sequential advance of `pc` is exact: the instruction that is fetched ends within the buffer, and
adding its length does not wrap (10_state.md section 3). -/
def Obligations.SequentialPcExact : Prop :=
  ∀ (s : State) (i : Instr), s.Inv → fetch s = .instr i →
    s.pc.toNat + (encode i).length ≤ s.plen ∧
    (s.pc + BitVec.ofNat 32 (encode i).length).toNat = s.pc.toNat + (encode i).length

/-! ### Stops, runs and the host -/

/-- Steps after a step that reported `finished` = 1 change nothing: EOP, TRUNC and TERMINAL are all idle
(40_step_and_dispatch.md section 2, Run). -/
def Obligations.FinishedStepsAreIdle : Prop :=
  ∀ s t : State, step s = .next t → t.finished = true →
    ∃ u, step t = .next u ∧ SameArch t u ∧ u.finished = true

/-- Once a run has finished, more fuel gives the same end (40_step_and_dispatch.md section 2, Run). -/
def Obligations.MoreFuelSameEnd : Prop :=
  ∀ (n k : Nat) (s t : State), runUntilFinished (n + 1) s = .next t → t.finished = true →
    runUntilFinished (n + 1 + k) s = .next t

/-- HALT and FAULT are sticky: no host transition but `Reset` changes the status, the fault report, `pc`,
the flag or the remainder of a stopped machine (60_exceptions.md section 5, decision D14). -/
def Obligations.StickyUntilReset : Prop :=
  ∀ (l : Transition) (s t : State), s.status ≠ .run → l ≠ .reset → transition l s = .next t →
    SameReport s t ∧ t.pc = s.pc ∧ t.eqFlag = s.eqFlag ∧ t.rem = s.rem

/-- R48 and R49: `Append` adds one byte at `plen` while there is room, in any status, and changes nothing
else; at capacity it changes nothing and the host sees `append_ready` 0. Appending bytes is a sequence of
`Append`s, one per byte, in order. -/
def Obligations.AppendAddsOneByte : Prop :=
  ∀ (b : Byte) (s : State),
    (s.plen < s.progCap → ∃ t, transition (.append b) s = .next t ∧
      t.prog.read s.plen = some b ∧ (∀ a, a ≠ s.plen → t.prog.read a = s.prog.read a) ∧
      t.plen = s.plen + 1 ∧ t = { s with prog := t.prog, plen := t.plen }) ∧
    (s.progCap ≤ s.plen →
      transition (.append b) s = .next s ∧ ∀ i, (outputs i s).appendReady = false) ∧
    ∀ bs : List Byte, runTransitions (bs.map .append) s = .next (s.appendBytes bs)

/-- R25: `SetReg` writes the one register it names, if it exists, in any status, and changes nothing
else. No host write (`Append`, `SetReg`) writes `pc`, `eq`, `rem`, the status registers or an existing byte
of the program buffer. -/
def Obligations.SetRegWritesOneRegister : Prop :=
  ∀ (i : Byte) (v : Word) (s : State),
    (i.toNat < s.nreg → ∃ t, transition (.setReg i v) s = .next t ∧
      t.reg i.toNat = v ∧ SameRegsBut i.toNat s t ∧ t = { s with regs := t.regs }) ∧
    (s.nreg ≤ i.toNat → transition (.setReg i v) s = .next s) ∧
    ∀ (l : Transition) (t : State), l ≠ .reset → l ≠ .step → transition l s = .next t →
      t.pc = s.pc ∧ t.eqFlag = s.eqFlag ∧ t.rem = s.rem ∧ SameReport s t ∧
      ∀ a, a < s.plen → t.prog.read a = s.prog.read a

/-- R23: exactly one transition happens at a clock edge, by the fixed priority Reset, Append, SetReg,
Step. -/
def Obligations.OneTransitionPerEdge : Prop :=
  ∀ (p : Inputs) (s : State),
    (p.rst = true → clockEdge p s = transition .reset s) ∧
    (p.rst = false → p.appendValid = true → clockEdge p s = transition (.append p.appendData) s) ∧
    (p.rst = false → p.appendValid = false → p.setValid = true →
      clockEdge p s = transition (.setReg p.setIdx p.setData) s) ∧
    (p.rst = false → p.appendValid = false → p.setValid = false → p.step = true ∨ p.run = true →
      clockEdge p s = transition .step s) ∧
    (p.rst = false → p.appendValid = false → p.setValid = false → p.step = false → p.run = false →
      clockEdge p s = .next s)

/-- What the output ports show (10_state.md section 8): `pc`, `eq`, `rem` and the fault registers as they
are, the debug register or 0, the status by its code (10_state.md section 5), the cause by its code
(60_exceptions.md section 1), the outcome by its code, with `finished` 1 exactly when that is not 0
(40_step_and_dispatch.md section 2). In a state of the invariant the port shows the program length exactly,
and status 2 goes with a cause that is not 0. -/
def Obligations.OutputsShowState : Prop :=
  ∀ (i : Byte) (s : State),
    (outputs i s).pc = s.pc ∧ (outputs i s).rem = s.rem ∧ (outputs i s).eq = s.eqFlag ∧
    (outputs i s).faultPc = s.faultPc ∧ (outputs i s).faultOp = s.faultOp ∧
    (((outputs i s).status = 0#2 ↔ s.status = .run) ∧ ((outputs i s).status = 1#2 ↔ s.status = .halt) ∧
      ((outputs i s).status = 2#2 ↔ s.status = .fault)) ∧
    (((outputs i s).cause = 0#4 ↔ s.cause = .none) ∧ ((outputs i s).cause = 1#4 ↔ s.cause = .illegalOpcode) ∧
      ((outputs i s).cause = 2#4 ↔ s.cause = .divByZero) ∧
      ((outputs i s).cause = 3#4 ↔ s.cause = .divOverflow) ∧
      ((outputs i s).cause = 4#4 ↔ s.cause = .regIndex) ∧ ((outputs i s).cause = 5#4 ↔ s.cause = .pcRange)) ∧
    (((outputs i s).stopReason = 0#3 ↔ s.stopReason = .retired) ∧
      ((outputs i s).stopReason = 1#3 ↔ s.stopReason = .eop) ∧
      ((outputs i s).stopReason = 2#3 ↔ s.stopReason = .trunc) ∧
      ((outputs i s).stopReason = 3#3 ↔ s.stopReason = .hlt) ∧
      ((outputs i s).stopReason = 4#3 ↔ s.stopReason = .fault) ∧
      ((outputs i s).stopReason = 5#3 ↔ s.stopReason = .terminal)) ∧
    ((outputs i s).appendReady = true ↔ s.plen < s.progCap) ∧
    (i.toNat < s.nreg → (outputs i s).dbgData = s.reg i.toNat ∧ (outputs i s).dbgValid = true) ∧
    (s.nreg ≤ i.toNat → (outputs i s).dbgData = 0#32 ∧ (outputs i s).dbgValid = false) ∧
    ((outputs i s).finished = true ↔ (outputs i s).stopReason ≠ 0#3) ∧
    (s.Inv → (outputs i s).plen.toNat = s.plen ∧
      ((outputs i s).status = 2#2 ↔ (outputs i s).cause ≠ 0#4))

/-- Appending completes an instruction. Where the buffer ends with a proper part of an instruction's bytes
at `pc` (none of them is the end of program), a step waits and changes nothing; after the host appends the
rest, the next step executes that instruction whole (20_memory.md section 7, 40_step_and_dispatch.md
section 2). It ties the encoder, `Append`, the buffer, the fetch and the decoder together. -/
def Obligations.AppendingCompletesInstruction : Prop :=
  ∀ (s : State) (i : Instr) (got missing : List Byte), s.Inv → s.status = .run → i.wf = true →
    encode i = got ++ missing → missing ≠ [] → s.pc.toNat + got.length = s.plen →
    s.prog.readBytes s.pc.toNat got.length = some got → s.plen + missing.length ≤ s.progCap →
    step s = .next (s.report (if got = [] then .eop else .trunc)) ∧
    step (s.appendBytes missing) = exec i (s.appendBytes missing) ∧
    s.appendBytes missing =
      { s with prog := (s.appendBytes missing).prog, plen := s.plen + missing.length }
end

