-- ==== Sys2Proof/Laws/Assembler.lean ====
section
/-! SUPPORT. The decimal numerals of the canonical lines read back, and the operand tokens they make. -/

namespace Sys2Proof.Machine

theorem digit_isDigit (k : Nat) : isDigit (Char.ofNat (48 + k % 10)) = true := by
  have h : k % 10 < 10 := Nat.mod_lt _ (by omega)
  generalize k % 10 = j at h
  interval_cases j <;> rfl

theorem digit_value (k : Nat) : (Char.ofNat (48 + k % 10)).toNat - 48 = k % 10 := by
  have h : k % 10 < 10 := Nat.mod_lt _ (by omega)
  generalize k % 10 = j at h
  interval_cases j <;> rfl

/-- A numeral is made of digits. -/
theorem decimal_isDigit (n : Nat) : ∀ c ∈ decimal n, isDigit c = true := by
  unfold decimal
  repeat' split
  all_goals simp [digit_isDigit]

/-- A numeral has at least one digit. -/
theorem decimal_isEmpty (n : Nat) : (decimal n).isEmpty = false := by
  unfold decimal
  repeat' split
  all_goals rfl

/-- A numeral's digits have the number's value. -/
theorem digitsValue_decimal {n : Nat} (h : n < 100000) : digitsValue (decimal n) = n := by
  unfold decimal digitsValue
  simp only []
  repeat' split
  all_goals
    simp only [List.foldl_cons, List.foldl_nil, digit_value]
    omega

/-- The text after a numeral does not go on with a digit. -/
def stopsDigits (rest : List Char) : Bool := rest.head?.all (fun c => !isDigit c)

/-- A run of digits ends where the text after it begins. -/
theorem digits_span {ds rest : List Char} (h : ∀ c ∈ ds, isDigit c = true) (hr : stopsDigits rest = true) :
    (ds ++ rest).takeWhile isDigit = ds ∧ (ds ++ rest).dropWhile isDigit = rest := by
  rw [List.takeWhile_append_of_pos h, List.dropWhile_append_of_pos h]
  cases rest with
  | nil => simp
  | cons c r =>
    have hc : isDigit c = false := by simpa [stopsDigits] using hr
    simp [hc]

/-- The text of a register token parses to it. -/
theorem parseOperand_register (i : Byte) {rest : List Char} (hr : stopsDigits rest = true) :
    parseOperand ('$' :: (decimal i.toNat ++ rest)) = some (.register i, rest) := by
  obtain ⟨h1, h2⟩ := digits_span (decimal_isDigit i.toNat) hr
  have := i.isLt
  simp only [parseOperand, h1, h2, digitsValue_decimal (show i.toNat < 100000 by omega), decimal_isEmpty]
  simp
  omega

/-- The text of a 16-bit number token parses to it. -/
theorem parseOperand_number (imm : BitVec 16) {rest : List Char} (hr : stopsDigits rest = true) :
    parseOperand ('#' :: (decimal imm.toNat ++ rest)) = some (.number (BitVec.ofNat 32 imm.toNat), rest) := by
  obtain ⟨h1, h2⟩ := digits_span (decimal_isDigit imm.toNat) hr
  have := imm.isLt
  simp only [parseOperand, h1, h2, digitsValue_decimal (show imm.toNat < 100000 by omega), decimal_isEmpty]
  simp
  omega

/-- A mnemonic names its operation. -/
theorem mnemonicToOpcode_mnemonic (op : Op) : mnemonicToOpcode (mnemonic op) = .defined op := by
  cases op <;> rfl

end Sys2Proof.Machine
end

