-- ==== Sys2Proof/Laws/Decode.lean ====
section
/-! SUPPORT. Small lemmas of the opcode map, the lengths and the byte order. -/

namespace Sys2Proof

@[simp] theorem Op.ofByte_code (op : Op) : Op.ofByte op.code = some op := by cases op <;> rfl

/-- Left to right, the map is right to left undone. -/
theorem Op.code_of_ofByte {b : Byte} {op : Op} (h : Op.ofByte b = some op) : b = op.code := by
  revert h
  revert op
  revert b
  decide

/-- The bytes outside the defined set are those from 17 up (30_encoding.md R69). -/
theorem Op.ofByte_eq_none {b : Byte} : Op.ofByte b = none ↔ 17 ≤ b.toNat := by
  revert b
  decide

@[simp] theorem instrLen_code (op : Op) : instrLen op.code = op.format.length := by
  simp [instrLen]

theorem instrLen_illegal {b : Byte} (h : 17 ≤ b.toNat) : instrLen b = 1 := by
  simp [instrLen, Op.ofByte_eq_none.mpr h]

theorem instrLen_pos (b : Byte) : 1 ≤ instrLen b := by
  unfold instrLen
  split
  · rename_i op _
    cases op <;> decide
  · exact Nat.le_refl 1

theorem instrLen_le (b : Byte) : instrLen b ≤ 4 := by
  unfold instrLen
  split
  · rename_i op _
    cases op <;> decide
  · decide

/-- The big-endian pair is 256 times the first byte and the second (20_memory.md R41). -/
theorem be16_toNat (hi lo : Byte) : (be16 hi lo).toNat = hi.toNat * 256 + lo.toNat := by
  have h := lo.isLt
  simp only [be16, BitVec.toNat_append]
  rw [Nat.shiftLeft_eq, Nat.or_comm, ← Nat.shiftLeft_eq, Nat.or_comm, Nat.shiftLeft_add_eq_or_of_lt (by omega),
    Nat.shiftLeft_eq]

/-- The opcode byte of what the decoder reads is the byte it read. -/
theorem firstByte_decodeInstr (b0 b1 b2 b3 : Byte) : firstByte (decodeInstr b0 b1 b2 b3) = b0 := by
  unfold decodeInstr
  split <;> first | rfl | (rename_i h; rw [Op.code_of_ofByte h]; rfl)

/-- What the decoder reads is well-formed. -/
theorem decodeInstr_wf (b0 b1 b2 b3 : Byte) : (decodeInstr b0 b1 b2 b3).wf = true := by
  unfold decodeInstr
  split <;> first | rfl | (rename_i h; simpa [Instr.wf] using Op.ofByte_eq_none.mp h)

end Sys2Proof
end

