-- ==== Sys2Proof/Laws/State.lean ====
section
/-! SUPPORT. One lemma per field of State per update of Machine/Ops.lean, so that no proof unfolds a record
update, and what the register reads see after each. -/

namespace Sys2Proof.Machine

/-! ### `State.setReg` -/

@[simp] theorem State.setReg_regs (s : State) (i : Nat) (v : Word) : (s.setReg i v).regs = s.regs.set i v := rfl
@[simp] theorem State.setReg_pc (s : State) (i : Nat) (v : Word) : (s.setReg i v).pc = s.pc := rfl
@[simp] theorem State.setReg_eqFlag (s : State) (i : Nat) (v : Word) : (s.setReg i v).eqFlag = s.eqFlag := rfl
@[simp] theorem State.setReg_rem (s : State) (i : Nat) (v : Word) : (s.setReg i v).rem = s.rem := rfl
@[simp] theorem State.setReg_status (s : State) (i : Nat) (v : Word) : (s.setReg i v).status = s.status := rfl
@[simp] theorem State.setReg_cause (s : State) (i : Nat) (v : Word) : (s.setReg i v).cause = s.cause := rfl
@[simp] theorem State.setReg_faultPc (s : State) (i : Nat) (v : Word) : (s.setReg i v).faultPc = s.faultPc := rfl
@[simp] theorem State.setReg_faultOp (s : State) (i : Nat) (v : Word) : (s.setReg i v).faultOp = s.faultOp := rfl
@[simp] theorem State.setReg_prog (s : State) (i : Nat) (v : Word) : (s.setReg i v).prog = s.prog := rfl
@[simp] theorem State.setReg_plen (s : State) (i : Nat) (v : Word) : (s.setReg i v).plen = s.plen := rfl
@[simp] theorem State.setReg_progCap (s : State) (i : Nat) (v : Word) : (s.setReg i v).progCap = s.progCap := rfl
@[simp] theorem State.setReg_stopReason (s : State) (i : Nat) (v : Word) : (s.setReg i v).stopReason = s.stopReason := rfl
@[simp] theorem State.setReg_nreg (s : State) (i : Nat) (v : Word) : (s.setReg i v).nreg = s.nreg := by
  simp [State.nreg]

/-- A register reads back what was written, if it exists. -/
theorem State.setReg_reg_same (s : State) (i : Nat) (v : Word) (h : i < s.nreg) :
    (s.setReg i v).reg i = v := by
  simp only [State.nreg] at h
  simp [State.reg, h]

/-- A register write leaves every other register alone. -/
theorem State.setReg_reg_other (s : State) (i j : Nat) (v : Word) (h : j ≠ i) :
    (s.setReg i v).reg j = s.reg j := by
  simp [State.reg, List.getElem?_set_ne (Ne.symm h)]

/-! ### `State.setRem` -/

@[simp] theorem State.setRem_regs (s : State) (v : Word) : (s.setRem v).regs = s.regs := rfl
@[simp] theorem State.setRem_pc (s : State) (v : Word) : (s.setRem v).pc = s.pc := rfl
@[simp] theorem State.setRem_eqFlag (s : State) (v : Word) : (s.setRem v).eqFlag = s.eqFlag := rfl
@[simp] theorem State.setRem_rem (s : State) (v : Word) : (s.setRem v).rem = v := rfl
@[simp] theorem State.setRem_status (s : State) (v : Word) : (s.setRem v).status = s.status := rfl
@[simp] theorem State.setRem_cause (s : State) (v : Word) : (s.setRem v).cause = s.cause := rfl
@[simp] theorem State.setRem_faultPc (s : State) (v : Word) : (s.setRem v).faultPc = s.faultPc := rfl
@[simp] theorem State.setRem_faultOp (s : State) (v : Word) : (s.setRem v).faultOp = s.faultOp := rfl
@[simp] theorem State.setRem_prog (s : State) (v : Word) : (s.setRem v).prog = s.prog := rfl
@[simp] theorem State.setRem_plen (s : State) (v : Word) : (s.setRem v).plen = s.plen := rfl
@[simp] theorem State.setRem_progCap (s : State) (v : Word) : (s.setRem v).progCap = s.progCap := rfl
@[simp] theorem State.setRem_stopReason (s : State) (v : Word) : (s.setRem v).stopReason = s.stopReason := rfl
@[simp] theorem State.setRem_reg (s : State) (v : Word) (j : Nat) : (s.setRem v).reg j = s.reg j := rfl
@[simp] theorem State.setRem_nreg (s : State) (v : Word) : (s.setRem v).nreg = s.nreg := rfl

/-! ### `State.setEq` -/

@[simp] theorem State.setEq_regs (s : State) (v : Bool) : (s.setEq v).regs = s.regs := rfl
@[simp] theorem State.setEq_pc (s : State) (v : Bool) : (s.setEq v).pc = s.pc := rfl
@[simp] theorem State.setEq_eqFlag (s : State) (v : Bool) : (s.setEq v).eqFlag = v := rfl
@[simp] theorem State.setEq_rem (s : State) (v : Bool) : (s.setEq v).rem = s.rem := rfl
@[simp] theorem State.setEq_status (s : State) (v : Bool) : (s.setEq v).status = s.status := rfl
@[simp] theorem State.setEq_cause (s : State) (v : Bool) : (s.setEq v).cause = s.cause := rfl
@[simp] theorem State.setEq_faultPc (s : State) (v : Bool) : (s.setEq v).faultPc = s.faultPc := rfl
@[simp] theorem State.setEq_faultOp (s : State) (v : Bool) : (s.setEq v).faultOp = s.faultOp := rfl
@[simp] theorem State.setEq_prog (s : State) (v : Bool) : (s.setEq v).prog = s.prog := rfl
@[simp] theorem State.setEq_plen (s : State) (v : Bool) : (s.setEq v).plen = s.plen := rfl
@[simp] theorem State.setEq_progCap (s : State) (v : Bool) : (s.setEq v).progCap = s.progCap := rfl
@[simp] theorem State.setEq_stopReason (s : State) (v : Bool) : (s.setEq v).stopReason = s.stopReason := rfl
@[simp] theorem State.setEq_reg (s : State) (v : Bool) (j : Nat) : (s.setEq v).reg j = s.reg j := rfl
@[simp] theorem State.setEq_nreg (s : State) (v : Bool) : (s.setEq v).nreg = s.nreg := rfl

/-! ### `State.report` -/

@[simp] theorem State.report_regs (s : State) (r : StopReason) : (s.report r).regs = s.regs := rfl
@[simp] theorem State.report_pc (s : State) (r : StopReason) : (s.report r).pc = s.pc := rfl
@[simp] theorem State.report_eqFlag (s : State) (r : StopReason) : (s.report r).eqFlag = s.eqFlag := rfl
@[simp] theorem State.report_rem (s : State) (r : StopReason) : (s.report r).rem = s.rem := rfl
@[simp] theorem State.report_status (s : State) (r : StopReason) : (s.report r).status = s.status := rfl
@[simp] theorem State.report_cause (s : State) (r : StopReason) : (s.report r).cause = s.cause := rfl
@[simp] theorem State.report_faultPc (s : State) (r : StopReason) : (s.report r).faultPc = s.faultPc := rfl
@[simp] theorem State.report_faultOp (s : State) (r : StopReason) : (s.report r).faultOp = s.faultOp := rfl
@[simp] theorem State.report_prog (s : State) (r : StopReason) : (s.report r).prog = s.prog := rfl
@[simp] theorem State.report_plen (s : State) (r : StopReason) : (s.report r).plen = s.plen := rfl
@[simp] theorem State.report_progCap (s : State) (r : StopReason) : (s.report r).progCap = s.progCap := rfl
@[simp] theorem State.report_stopReason (s : State) (r : StopReason) : (s.report r).stopReason = r := rfl
@[simp] theorem State.report_reg (s : State) (r : StopReason) (j : Nat) : (s.report r).reg j = s.reg j := rfl
@[simp] theorem State.report_nreg (s : State) (r : StopReason) : (s.report r).nreg = s.nreg := rfl

/-! ### `State.retire` -/

@[simp] theorem State.retire_regs (s : State) (len : Nat) : (s.retire len).regs = s.regs := rfl
@[simp] theorem State.retire_pc (s : State) (len : Nat) : (s.retire len).pc = s.pc + BitVec.ofNat 32 len := rfl
@[simp] theorem State.retire_eqFlag (s : State) (len : Nat) : (s.retire len).eqFlag = s.eqFlag := rfl
@[simp] theorem State.retire_rem (s : State) (len : Nat) : (s.retire len).rem = s.rem := rfl
@[simp] theorem State.retire_status (s : State) (len : Nat) : (s.retire len).status = s.status := rfl
@[simp] theorem State.retire_cause (s : State) (len : Nat) : (s.retire len).cause = s.cause := rfl
@[simp] theorem State.retire_faultPc (s : State) (len : Nat) : (s.retire len).faultPc = s.faultPc := rfl
@[simp] theorem State.retire_faultOp (s : State) (len : Nat) : (s.retire len).faultOp = s.faultOp := rfl
@[simp] theorem State.retire_prog (s : State) (len : Nat) : (s.retire len).prog = s.prog := rfl
@[simp] theorem State.retire_plen (s : State) (len : Nat) : (s.retire len).plen = s.plen := rfl
@[simp] theorem State.retire_progCap (s : State) (len : Nat) : (s.retire len).progCap = s.progCap := rfl
@[simp] theorem State.retire_stopReason (s : State) (len : Nat) : (s.retire len).stopReason = .retired := rfl
@[simp] theorem State.retire_reg (s : State) (len : Nat) (j : Nat) : (s.retire len).reg j = s.reg j := rfl
@[simp] theorem State.retire_nreg (s : State) (len : Nat) : (s.retire len).nreg = s.nreg := rfl

/-! ### `State.jumpTo` -/

@[simp] theorem State.jumpTo_regs (s : State) (t : Word) : (s.jumpTo t).regs = s.regs := rfl
@[simp] theorem State.jumpTo_pc (s : State) (t : Word) : (s.jumpTo t).pc = t := rfl
@[simp] theorem State.jumpTo_eqFlag (s : State) (t : Word) : (s.jumpTo t).eqFlag = s.eqFlag := rfl
@[simp] theorem State.jumpTo_rem (s : State) (t : Word) : (s.jumpTo t).rem = s.rem := rfl
@[simp] theorem State.jumpTo_status (s : State) (t : Word) : (s.jumpTo t).status = s.status := rfl
@[simp] theorem State.jumpTo_cause (s : State) (t : Word) : (s.jumpTo t).cause = s.cause := rfl
@[simp] theorem State.jumpTo_faultPc (s : State) (t : Word) : (s.jumpTo t).faultPc = s.faultPc := rfl
@[simp] theorem State.jumpTo_faultOp (s : State) (t : Word) : (s.jumpTo t).faultOp = s.faultOp := rfl
@[simp] theorem State.jumpTo_prog (s : State) (t : Word) : (s.jumpTo t).prog = s.prog := rfl
@[simp] theorem State.jumpTo_plen (s : State) (t : Word) : (s.jumpTo t).plen = s.plen := rfl
@[simp] theorem State.jumpTo_progCap (s : State) (t : Word) : (s.jumpTo t).progCap = s.progCap := rfl
@[simp] theorem State.jumpTo_stopReason (s : State) (t : Word) : (s.jumpTo t).stopReason = .retired := rfl
@[simp] theorem State.jumpTo_reg (s : State) (t : Word) (j : Nat) : (s.jumpTo t).reg j = s.reg j := rfl
@[simp] theorem State.jumpTo_nreg (s : State) (t : Word) : (s.jumpTo t).nreg = s.nreg := rfl

/-! ### `State.halt` -/

@[simp] theorem State.halt_regs (s : State) : (s.halt).regs = s.regs := rfl
@[simp] theorem State.halt_pc (s : State) : (s.halt).pc = s.pc + 1#32 := rfl
@[simp] theorem State.halt_eqFlag (s : State) : (s.halt).eqFlag = s.eqFlag := rfl
@[simp] theorem State.halt_rem (s : State) : (s.halt).rem = s.rem := rfl
@[simp] theorem State.halt_status (s : State) : (s.halt).status = .halt := rfl
@[simp] theorem State.halt_cause (s : State) : (s.halt).cause = s.cause := rfl
@[simp] theorem State.halt_faultPc (s : State) : (s.halt).faultPc = s.faultPc := rfl
@[simp] theorem State.halt_faultOp (s : State) : (s.halt).faultOp = s.faultOp := rfl
@[simp] theorem State.halt_prog (s : State) : (s.halt).prog = s.prog := rfl
@[simp] theorem State.halt_plen (s : State) : (s.halt).plen = s.plen := rfl
@[simp] theorem State.halt_progCap (s : State) : (s.halt).progCap = s.progCap := rfl
@[simp] theorem State.halt_stopReason (s : State) : (s.halt).stopReason = .hlt := rfl
@[simp] theorem State.halt_reg (s : State) (j : Nat) : (s.halt).reg j = s.reg j := rfl
@[simp] theorem State.halt_nreg (s : State) : (s.halt).nreg = s.nreg := rfl

/-! ### `State.raiseFault` -/

@[simp] theorem State.raiseFault_regs (s : State) (c : Cause) (b0 : Byte) : (s.raiseFault c b0).regs = s.regs := rfl
@[simp] theorem State.raiseFault_pc (s : State) (c : Cause) (b0 : Byte) : (s.raiseFault c b0).pc = if c = .illegalOpcode then s.pc + 1#32 else s.pc := rfl
@[simp] theorem State.raiseFault_eqFlag (s : State) (c : Cause) (b0 : Byte) : (s.raiseFault c b0).eqFlag = s.eqFlag := rfl
@[simp] theorem State.raiseFault_rem (s : State) (c : Cause) (b0 : Byte) : (s.raiseFault c b0).rem = s.rem := rfl
@[simp] theorem State.raiseFault_status (s : State) (c : Cause) (b0 : Byte) : (s.raiseFault c b0).status = .fault := rfl
@[simp] theorem State.raiseFault_cause (s : State) (c : Cause) (b0 : Byte) : (s.raiseFault c b0).cause = c := rfl
@[simp] theorem State.raiseFault_faultPc (s : State) (c : Cause) (b0 : Byte) : (s.raiseFault c b0).faultPc = s.pc := rfl
@[simp] theorem State.raiseFault_faultOp (s : State) (c : Cause) (b0 : Byte) : (s.raiseFault c b0).faultOp = b0 := rfl
@[simp] theorem State.raiseFault_prog (s : State) (c : Cause) (b0 : Byte) : (s.raiseFault c b0).prog = s.prog := rfl
@[simp] theorem State.raiseFault_plen (s : State) (c : Cause) (b0 : Byte) : (s.raiseFault c b0).plen = s.plen := rfl
@[simp] theorem State.raiseFault_progCap (s : State) (c : Cause) (b0 : Byte) : (s.raiseFault c b0).progCap = s.progCap := rfl
@[simp] theorem State.raiseFault_stopReason (s : State) (c : Cause) (b0 : Byte) : (s.raiseFault c b0).stopReason = .fault := rfl
@[simp] theorem State.raiseFault_reg (s : State) (c : Cause) (b0 : Byte) (j : Nat) : (s.raiseFault c b0).reg j = s.reg j := rfl
@[simp] theorem State.raiseFault_nreg (s : State) (c : Cause) (b0 : Byte) : (s.raiseFault c b0).nreg = s.nreg := rfl

/-! ### Reset -/

/-- Every register is 0 after reset, also the ones beyond the register file. -/
@[simp] theorem State.resetFor_reg (n cap j : Nat) : (State.resetFor n cap).reg j = 0#32 := by
  simp only [State.reg, State.resetFor, List.getD_eq_getElem?_getD, List.getElem?_replicate]
  split <;> rfl

@[simp] theorem State.resetFor_nreg (n cap : Nat) : (State.resetFor n cap).nreg = n := by
  simp [State.nreg, State.resetFor]

end Sys2Proof.Machine
end

