-- ==== Sys2Proof/Laws/Ops.lean ====
section
/-! SUPPORT. One lemma per shared operation that says everything it can do; the proofs about instructions
cite these and do not unfold the operations. -/

namespace Sys2Proof.Machine

/-! ### Moving past an instruction -/

/-- The 32-bit sum is the integer one while it is a 32-bit offset. -/
theorem pc_add_exact {p : Word} {n : Nat} (h : p.toNat + n ≤ 4294967295) :
    (p + BitVec.ofNat 32 n).toNat = p.toNat + n := by
  rw [BitVec.toNat_add, BitVec.toNat_ofNat, Nat.mod_eq_of_lt (by omega : n < 2 ^ 32), Nat.mod_eq_of_lt (by omega)]

/-! ### The register index check -/

theorem State.regsOk_iff {s : State} {fields : List Byte} :
    s.regsOk fields = true ↔ ∀ i ∈ fields, i.toNat < s.nreg := by
  simp [State.regsOk]

theorem withRegs_ok {op : Op} {fields : List Byte} {s : State} {k : Result}
    (h : ∀ i ∈ fields, i.toNat < s.nreg) : withRegs op fields s k = k := by
  rw [withRegs, if_pos (State.regsOk_iff.mpr h)]

theorem withRegs_bad {op : Op} {fields : List Byte} {s : State} {k : Result}
    (h : ∃ i ∈ fields, s.nreg ≤ i.toNat) :
    withRegs op fields s k = .next (s.raiseFault .regIndex op.code) := by
  rw [withRegs, if_neg]
  rw [State.regsOk_iff]
  obtain ⟨i, hi, hn⟩ := h
  exact fun hall => absurd (hall i hi) (Nat.not_lt.mpr hn)

/-- The check either lets the effect through or raises REG_INDEX. -/
theorem withRegs_cases (op : Op) (fields : List Byte) (s : State) (k : Result) :
    ((∀ i ∈ fields, i.toNat < s.nreg) ∧ withRegs op fields s k = k) ∨
    ((∃ i ∈ fields, s.nreg ≤ i.toNat) ∧
      withRegs op fields s k = .next (s.raiseFault .regIndex op.code)) := by
  by_cases h : ∀ i ∈ fields, i.toNat < s.nreg
  · exact .inl ⟨h, withRegs_ok h⟩
  · have h' : ∃ i ∈ fields, s.nreg ≤ i.toNat := by simpa using h
    exact .inr ⟨h', withRegs_bad h'⟩

/-! ### Jumps -/

theorem pcTarget_some {t : Int} (h0 : 0 ≤ t) (h1 : t ≤ 4294967295) : pcTarget t = some (BitVec.ofInt 32 t) :=
  if_pos ⟨h0, h1⟩

theorem pcTarget_none {t : Int} (h : t < 0 ∨ 4294967295 < t) : pcTarget t = none :=
  if_neg (by omega)

/-- A target in range is the program counter's unsigned value after the jump. -/
theorem pcTarget_value {t : Int} {p : Word} (h : pcTarget t = some p) : (p.toNat : Int) = t := by
  unfold pcTarget at h
  split at h
  · rename_i ht
    cases h
    rw [BitVec.toNat_ofInt]
    omega
  · cases h

theorem takeJump_ok {op : Op} {t : Int} {s : State} (h0 : 0 ≤ t) (h1 : t ≤ 4294967295) :
    takeJump op t s = .next (s.jumpTo (BitVec.ofInt 32 t)) := by
  simp [takeJump, pcTarget_some h0 h1]

theorem takeJump_bad {op : Op} {t : Int} {s : State} (h : t < 0 ∨ 4294967295 < t) :
    takeJump op t s = .next (s.raiseFault .pcRange op.code) := by
  simp [takeJump, pcTarget_none h]

/-- A jump either goes to its target or raises PC_RANGE. -/
theorem takeJump_cases (op : Op) (t : Int) (s : State) :
    (∃ p, (p.toNat : Int) = t ∧ takeJump op t s = .next (s.jumpTo p)) ∨
    ((t < 0 ∨ 4294967295 < t) ∧ takeJump op t s = .next (s.raiseFault .pcRange op.code)) := by
  by_cases h : 0 ≤ t ∧ t ≤ 4294967295
  · exact .inl ⟨_, pcTarget_value (pcTarget_some h.1 h.2), takeJump_ok h.1 h.2⟩
  · exact .inr ⟨by omega, takeJump_bad (by omega)⟩

/-! ### The families' shared operations -/

theorem compare_ok {op : Op} {rel : Word → Word → Bool} {a b : Byte} {s : State} (ha : a.toNat < s.nreg)
    (hb : b.toNat < s.nreg) :
    compare op rel a b s = .next ((s.setEq (rel (s.reg a.toNat) (s.reg b.toNat))).retire 4) :=
  withRegs_ok (by simp [ha, hb])

theorem arith_ok {op : Op} {f : Int → Int → Int} {a b d : Byte} {s : State} (ha : a.toNat < s.nreg)
    (hb : b.toNat < s.nreg) (hd : d.toNat < s.nreg) :
    arith op f a b d s =
      .next ((s.setReg d.toNat (wrap32 (f (sint (s.reg a.toNat)) (sint (s.reg b.toNat))))).retire 4) :=
  withRegs_ok (by simp [ha, hb, hd])

/-- DIV with good indices: one of its two faults, or quotient and remainder. -/
theorem divide_cases (a b d : Byte) (s : State) :
    (sint (s.reg b.toNat) = 0 ∧ divide a b d s = .next (s.raiseFault .divByZero Op.div.code)) ∨
    (sint (s.reg a.toNat) = intMin ∧ sint (s.reg b.toNat) = -1 ∧
      divide a b d s = .next (s.raiseFault .divOverflow Op.div.code)) ∨
    (sint (s.reg b.toNat) ≠ 0 ∧ ¬(sint (s.reg a.toNat) = intMin ∧ sint (s.reg b.toNat) = -1) ∧
      divide a b d s = .next (((s.setReg d.toNat
        (wrap32 (quotient (sint (s.reg a.toNat)) (sint (s.reg b.toNat))))).setRem
        (wrap32 (remainder (sint (s.reg a.toNat)) (sint (s.reg b.toNat))))).retire 4)) := by
  by_cases h0 : sint (s.reg b.toNat) = 0
  · exact .inl ⟨h0, by simp [divide, h0]⟩
  · by_cases h1 : sint (s.reg a.toNat) = intMin ∧ sint (s.reg b.toNat) = -1
    · exact .inr (.inl ⟨h1.1, h1.2, by simp [divide, h1.1, h1.2]⟩)
    · exact .inr (.inr ⟨h0, h1, by simp only [divide]; rw [if_neg h0, if_neg h1]⟩)

end Sys2Proof.Machine
end

