-- ==== Sys2Proof/Laws/Exec.lean ====
section
/-! SUPPORT. Everything executing an instruction can do, said once: invariants and frames over all
instructions are derived from this and not from the meanings. -/

namespace Sys2Proof.Machine

/-- The shapes of the next state of `exec`. -/
inductive Effect (i : Instr) (s : State) : State → Prop where
  /-- A fault was taken, of a cause this instruction can raise. -/
  | fault (c : Cause) (hc : i.wf = true → causeFits c (firstByte i)) : Effect i s (s.raiseFault c (firstByte i))
  | halt (hi : i = .hlt) : Effect i s s.halt
  /-- LOAD, ADD, SUB, MUL. -/
  | write (d : Byte) (v : Word) (hd : destReg i = some d) (hr : d.toNat < s.nreg) :
    Effect i s ((s.setReg d.toNat v).retire 4)
  /-- DIV. -/
  | divide (a b d : Byte) (q r : Word) (hi : i = .div a b d) (hr : d.toNat < s.nreg) :
    Effect i s (((s.setReg d.toNat q).setRem r).retire 4)
  /-- The comparisons. -/
  | compare (f : Bool) (hi : isComparison i = true) : Effect i s ((s.setEq f).retire 4)
  /-- A jump that is taken. -/
  | jump (p : Word) : Effect i s (s.jumpTo p)
  /-- JEQ not taken, ALOC. -/
  | pass : Effect i s (s.retire 2)

theorem arith_effect {op : Op} {f : Int → Int → Int} {a b d : Byte} {i : Instr} {s : State}
    (hi : destReg i = some d) (hb : firstByte i = op.code) (hc : causeFits .regIndex op.code) :
    ∃ t, arith op f a b d s = .next t ∧ Effect i s t := by
  rcases withRegs_cases op [a, b, d] s
    (.next ((s.setReg d.toNat (wrap32 (f (sint (s.reg a.toNat)) (sint (s.reg b.toNat))))).retire 4)) with
    ⟨h, he⟩ | ⟨_, he⟩
  · exact ⟨_, he, .write d _ hi (h d (by simp))⟩
  · exact ⟨_, he, hb ▸ .fault .regIndex fun _ => hb ▸ hc⟩

theorem compare_effect {op : Op} {rel : Word → Word → Bool} {a b : Byte} {i : Instr} {s : State}
    (hi : isComparison i = true) (hb : firstByte i = op.code) (hc : causeFits .regIndex op.code) :
    ∃ t, compare op rel a b s = .next t ∧ Effect i s t := by
  rcases withRegs_cases op [a, b] s (.next ((s.setEq (rel (s.reg a.toNat) (s.reg b.toNat))).retire 4)) with
    ⟨_, he⟩ | ⟨_, he⟩
  · exact ⟨_, he, .compare _ hi⟩
  · exact ⟨_, he, hb ▸ .fault .regIndex fun _ => hb ▸ hc⟩

theorem takeJump_effect {op : Op} {t : Int} {i : Instr} {s : State}
    (hb : firstByte i = op.code) (hc : causeFits .pcRange op.code) :
    ∃ u, takeJump op t s = .next u ∧ Effect i s u := by
  rcases takeJump_cases op t s with ⟨p, _, he⟩ | ⟨_, he⟩
  · exact ⟨_, he, .jump p⟩
  · exact ⟨_, he, hb ▸ .fault .pcRange fun _ => hb ▸ hc⟩

theorem withRegs_effect {op : Op} {fields : List Byte} {k : Result} {i : Instr} {s : State}
    (hb : firstByte i = op.code) (hc : causeFits .regIndex op.code)
    (hk : (∀ x ∈ fields, x.toNat < s.nreg) → ∃ t, k = .next t ∧ Effect i s t) :
    ∃ t, withRegs op fields s k = .next t ∧ Effect i s t := by
  rcases withRegs_cases op fields s k with ⟨h, he⟩ | ⟨_, he⟩
  · rw [he]; exact hk h
  · exact ⟨_, he, hb ▸ .fault .regIndex fun _ => hb ▸ hc⟩

/-- Every instruction has a next state, and its effect is one of the shapes. -/
theorem exec_effect (i : Instr) (s : State) : ∃ t, exec i s = .next t ∧ Effect i s t := by
  cases i with
  | load d imm =>
    exact withRegs_effect rfl ⟨by decide, by decide⟩ fun h => ⟨_, rfl, .write d _ rfl (h d (by simp))⟩
  | add a b d => exact arith_effect rfl rfl ⟨by decide, by decide⟩
  | sub a b d => exact arith_effect rfl rfl ⟨by decide, by decide⟩
  | mul a b d => exact arith_effect rfl rfl ⟨by decide, by decide⟩
  | div a b d =>
    refine withRegs_effect rfl ⟨by decide, by decide⟩ fun h => ?_
    rcases divide_cases a b d s with ⟨_, he⟩ | ⟨_, _, he⟩ | ⟨_, _, he⟩
    · exact ⟨_, he, .fault .divByZero fun _ => rfl⟩
    · exact ⟨_, he, .fault .divOverflow fun _ => rfl⟩
    · exact ⟨_, he, .divide a b d _ _ rfl (h d (by simp))⟩
  | hlt => exact ⟨_, rfl, .halt rfl⟩
  | jmp r => exact withRegs_effect rfl ⟨by decide, by decide⟩ fun _ => takeJump_effect rfl (.inl rfl)
  | jmpf r => exact withRegs_effect rfl ⟨by decide, by decide⟩ fun _ => takeJump_effect rfl (.inr (.inl rfl))
  | jmpb r =>
    exact withRegs_effect rfl ⟨by decide, by decide⟩ fun _ => takeJump_effect rfl (.inr (.inr (.inl rfl)))
  | eq a b pad => exact compare_effect rfl rfl ⟨by decide, by decide⟩
  | neq a b pad => exact compare_effect rfl rfl ⟨by decide, by decide⟩
  | gt a b pad => exact compare_effect rfl rfl ⟨by decide, by decide⟩
  | lt a b pad => exact compare_effect rfl rfl ⟨by decide, by decide⟩
  | gtq a b pad => exact compare_effect rfl rfl ⟨by decide, by decide⟩
  | ltq a b pad => exact compare_effect rfl rfl ⟨by decide, by decide⟩
  | jeq r =>
    refine withRegs_effect rfl ⟨by decide, by decide⟩ fun _ => ?_
    split
    · exact takeJump_effect rfl (.inr (.inr (.inr rfl)))
    · exact ⟨_, rfl, .pass⟩
  | aloc ign => exact ⟨_, rfl, .pass⟩
  | illegal b0 => exact ⟨_, rfl, .fault .illegalOpcode fun h => by simpa [Instr.wf, causeFits, firstByte] using h⟩

end Sys2Proof.Machine
end

