-- ==== Sys2Proof/Laws/Memory.lean ====
section
/-! SUPPORT. The laws of the program buffer: a read after a write, the canonical form, and what the buffer
invariant gives. -/

namespace Sys2Proof.Machine

@[simp] theorem Memory.read_nil (a : Nat) : Memory.read [] a = none := rfl

/-- An offset reads back what was written there. -/
theorem Memory.read_write_same (m : Memory) (a : Nat) (b : Byte) :
    Memory.read (Memory.write m a b) a = some b := by
  induction m with
  | nil => simp [Memory.write, Memory.read]
  | cons c m ih =>
    obtain ⟨k, d⟩ := c
    simp only [Memory.write]
    split
    · simp [Memory.read]
    · split
      · simp [Memory.read]
      · rename_i hk
        simp [Memory.read, hk, ih]

/-- A write leaves every other offset alone. -/
theorem Memory.read_write_other (m : Memory) (a a' : Nat) (b : Byte) (h : a' ≠ a) :
    Memory.read (Memory.write m a b) a' = Memory.read m a' := by
  induction m with
  | nil => simp [Memory.write, Memory.read, Memory.unlisted, Ne.symm h]
  | cons c m ih =>
    obtain ⟨k, d⟩ := c
    simp only [Memory.write]
    split
    · simp [Memory.read, Ne.symm h]
    · split
      · rename_i hk
        simp [Memory.read, hk, Ne.symm h]
      · simp [Memory.read, ih]

/-- The offsets a write lists: those listed before and its own. -/
theorem Memory.mem_write {m : Memory} {a : Nat} {b : Byte} {c : Host.Cell} (h : c ∈ Memory.write m a b) :
    c = (a, b) ∨ c ∈ m := by
  induction m with
  | nil => simpa [Memory.write] using h
  | cons e m ih =>
    obtain ⟨k, d⟩ := e
    simp only [Memory.write] at h
    split at h
    · simpa using h
    · split at h
      · rcases List.mem_cons.mp h with h | h
        · exact .inl h
        · exact .inr (List.mem_cons_of_mem _ h)
      · rcases List.mem_cons.mp h with h | h
        · exact .inr (h ▸ List.mem_cons_self)
        · exact (ih h).imp id (List.mem_cons_of_mem _)

/-- A write keeps the canonical form. -/
theorem Memory.write_keeps_wf (m : Memory) (a : Nat) (b : Byte) (h : Memory.wf m) :
    Memory.wf (Memory.write m a b) := by
  induction m with
  | nil => simp [Memory.write]
  | cons c m ih =>
    obtain ⟨k, d⟩ := c
    obtain ⟨hk, hm⟩ := List.pairwise_cons.mp h
    simp only [Memory.write]
    split
    · rename_i hak
      refine List.pairwise_cons.mpr ⟨fun e he => ?_, h⟩
      rcases List.mem_cons.mp he with rfl | he
      · exact hak
      · exact Nat.lt_trans hak (hk e he)
    · split
      · rename_i hka
        subst hka
        exact List.pairwise_cons.mpr ⟨hk, hm⟩
      · refine List.pairwise_cons.mpr ⟨fun e he => ?_, ih hm⟩
        rcases Memory.mem_write he with rfl | he
        · simp only; omega
        · exact hk e he

/-- Writing bytes in a row keeps the canonical form. -/
theorem Memory.writeBytes_keeps_wf (bs : List Byte) (m : Memory) (a : Nat) (h : Memory.wf m) :
    Memory.wf (Memory.writeBytes m a bs) := by
  induction bs generalizing m a with
  | nil => exact h
  | cons b bs ih => exact ih _ _ (Memory.write_keeps_wf m a b h)

/-- The buffer of the reset state is canonical. -/
theorem Memory.reset_wf (n cap : Nat) : Memory.wf (State.resetFor n cap).prog := by
  simp [State.resetFor]

/-- A buffer that holds exactly the offsets below `plen` is canonical. -/
theorem Memory.wf_of_offsets {m : Memory} {n : Nat} (h : m.map Prod.fst = List.range n) : Memory.wf m := by
  have : (m.map Prod.fst).Pairwise (· < ·) := h ▸ List.pairwise_lt_range
  exact List.pairwise_map.mp this

/-- An offset holds a byte exactly when it is listed. -/
theorem Memory.read_isSome (m : Memory) (a : Nat) : (Memory.read m a).isSome ↔ a ∈ m.map Prod.fst := by
  induction m with
  | nil => simp
  | cons c m ih =>
    obtain ⟨k, d⟩ := c
    simp only [Memory.read, List.map_cons, List.mem_cons]
    split
    · rename_i hk
      simp [hk]
    · rename_i hk
      simp [ih, Ne.symm hk]

/-- In a buffer that holds exactly the offsets below `n`, a byte is there exactly below `n`. -/
theorem Memory.read_isSome_lt {m : Memory} {n : Nat} (h : m.map Prod.fst = List.range n) (a : Nat) :
    (Memory.read m a).isSome ↔ a < n := by
  rw [Memory.read_isSome, h, List.mem_range]

/-- Writing above every listed offset adds the entry at the end. -/
theorem Memory.write_above (m : Memory) (a : Nat) (b : Byte) (h : ∀ c ∈ m, c.1 < a) :
    Memory.write m a b = m ++ [(a, b)] := by
  induction m with
  | nil => rfl
  | cons c m ih =>
    obtain ⟨k, d⟩ := c
    have hk : k < a := h (k, d) List.mem_cons_self
    rw [Memory.write, if_neg (by omega), if_neg (by omega), ih fun c hc => h c (List.mem_cons_of_mem _ hc)]
    rfl

/-- In a buffer that holds exactly the offsets below `n`, a write at `n` extends it by one. -/
theorem Memory.write_at_end {m : Memory} {n : Nat} (b : Byte) (h : m.map Prod.fst = List.range n) :
    (Memory.write m n b).map Prod.fst = List.range (n + 1) := by
  rw [Memory.write_above m n b fun c hc => List.mem_range.mp (h ▸ List.mem_map_of_mem hc)]
  simp [h, List.range_succ]

/-- `readBytes` answers exactly as many bytes as asked for. -/
theorem Memory.readBytes_length {m : Memory} {a n : Nat} {bs : List Byte} (h : Memory.readBytes m a n = some bs) :
    bs.length = n := by
  induction n generalizing a bs with
  | zero => simp [Memory.readBytes] at h; simp [← h]
  | succ n ih =>
    simp only [Memory.readBytes] at h
    split at h
    · rename_i b bs' _ h2
      cases h
      simp [ih h2]
    · cases h

/-- The first of the bytes read is the byte at the first offset. -/
theorem Memory.readBytes_head {m : Memory} {a n : Nat} {bs : List Byte} (h : Memory.readBytes m a (n + 1) = some bs) :
    ∃ b bs', Memory.read m a = some b ∧ Memory.readBytes m (a + 1) n = some bs' ∧ bs = b :: bs' := by
  simp only [Memory.readBytes] at h
  split at h
  · rename_i b bs' h1 h2
    cases h
    exact ⟨b, bs', h1, h2, rfl⟩
  · cases h

/-- Consecutive bytes can be read when each offset holds one. -/
theorem Memory.readBytes_isSome {m : Memory} {a n : Nat} (h : ∀ k, a ≤ k → k < a + n → (Memory.read m k).isSome) :
    (Memory.readBytes m a n).isSome := by
  induction n generalizing a with
  | zero => rfl
  | succ n ih =>
    obtain ⟨b, hb⟩ := Option.isSome_iff_exists.mp (h a (Nat.le_refl a) (by omega))
    obtain ⟨bs, hbs⟩ := Option.isSome_iff_exists.mp (ih (a := a + 1) fun k h1 h2 => h k (by omega) (by omega))
    simp [Memory.readBytes, hb, hbs]

/-- Reading consecutive bytes depends on those offsets alone. -/
theorem Memory.readBytes_congr {m m' : Memory} {a n : Nat}
    (h : ∀ k, a ≤ k → k < a + n → Memory.read m' k = Memory.read m k) :
    Memory.readBytes m' a n = Memory.readBytes m a n := by
  induction n generalizing a with
  | zero => rfl
  | succ n ih =>
    have hn : Memory.readBytes m' (a + 1) n = Memory.readBytes m (a + 1) n :=
      ih fun k h1 h2 => h k (by omega) (by omega)
    simp only [Memory.readBytes, h a (Nat.le_refl a) (by omega), hn]

/-- Writing bytes in a row leaves the offsets below them alone. -/
theorem Memory.read_writeBytes_below (bs : List Byte) (m : Memory) (a k : Nat) (h : k < a) :
    Memory.read (Memory.writeBytes m a bs) k = Memory.read m k := by
  induction bs generalizing m a with
  | nil => rfl
  | cons b bs ih =>
    rw [Memory.writeBytes, ih _ _ (by omega), Memory.read_write_other _ _ _ _ (by omega)]

/-- Bytes written in a row read back in order. -/
theorem Memory.readBytes_writeBytes (bs : List Byte) (m : Memory) (a n : Nat) (h : n ≤ bs.length) :
    Memory.readBytes (Memory.writeBytes m a bs) a n = some (bs.take n) := by
  induction bs generalizing m a n with
  | nil =>
    obtain rfl : n = 0 := by simpa using h
    rfl
  | cons b bs ih =>
    cases n with
    | zero => rfl
    | succ n =>
      have hn : n ≤ bs.length := by simpa using h
      have hr : Memory.read (Memory.writeBytes (Memory.write m a b) (a + 1) bs) a = some b := by
        rw [Memory.read_writeBytes_below _ _ _ _ (by omega), Memory.read_write_same]
      simp only [Memory.writeBytes, Memory.readBytes, hr, ih _ _ n hn, List.take_succ_cons]

end Sys2Proof.Machine
end

