-- ==== Sys2Proof/Laws/Fetch.lean ====
section
/-! SUPPORT. What the fetch can answer, and what a step can do. -/

namespace Sys2Proof.Machine

/-- Given exactly `len(B0)` bytes, the decoder reads one instruction and leaves nothing. -/
theorem decode_exact {b0 : Byte} {bs : List Byte} (h : bs.length + 1 = instrLen b0) :
    decode (b0 :: bs) = .ok (decodeInstr b0 (bs.getD 0 0#8) (bs.getD 1 0#8) (bs.getD 2 0#8), []) := by
  have h1 : ¬ bs.length < instrLen b0 - 1 := by omega
  have h2 : bs.drop (instrLen b0 - 1) = [] := List.drop_eq_nil_of_le (by omega)
  simp only [decode, if_neg h1, h2]

/-- Everything the fetch can answer (40_step_and_dispatch.md R100 to R105). -/
theorem fetch_cases (s : State) :
    (s.status ≠ .run ∧ fetch s = .idle .terminal) ∨
    (s.status = .run ∧ s.plen ≤ s.pc.toNat ∧ fetch s = .idle .eop) ∨
    (s.status = .run ∧ s.pc.toNat < s.plen ∧ ∃ b0, s.prog.read s.pc.toNat = some b0 ∧
      s.plen < s.pc.toNat + instrLen b0 ∧ fetch s = .idle .trunc) ∨
    (s.status = .run ∧ s.pc.toNat < s.plen ∧ ∃ b0 bs, s.prog.read s.pc.toNat = some b0 ∧
      s.pc.toNat + instrLen b0 ≤ s.plen ∧ s.prog.readBytes s.pc.toNat (instrLen b0) = some (b0 :: bs) ∧
      fetch s = .instr (decodeInstr b0 (bs.getD 0 0#8) (bs.getD 1 0#8) (bs.getD 2 0#8))) ∨
    (s.status = .run ∧ s.pc.toNat < s.plen ∧ fetch s = .hole s.pc.toNat ∧
      (s.prog.read s.pc.toNat = none ∨
        ∃ b0, s.pc.toNat + instrLen b0 ≤ s.plen ∧ s.prog.readBytes s.pc.toNat (instrLen b0) = none)) := by
  by_cases hs : s.status = .run
  · by_cases hp : s.plen ≤ s.pc.toNat
    · exact .inr (.inl ⟨hs, hp, by simp [fetch, hs, hp]⟩)
    · have hp' : s.pc.toNat < s.plen := by omega
      cases hr : s.prog.read s.pc.toNat with
      | none => exact .inr (.inr (.inr (.inr ⟨hs, hp', by simp [fetch, hs, hp, hr], .inl rfl⟩)))
      | some b0 =>
        by_cases ht : s.plen < s.pc.toNat + instrLen b0
        · exact .inr (.inr (.inl ⟨hs, hp', b0, rfl, ht, by simp [fetch, hs, hp, hr, ht]⟩))
        · have hf : fetch s = fetchBytes s b0 := by simp [fetch, hs, hp, hr, ht]
          cases hb : s.prog.readBytes s.pc.toNat (instrLen b0) with
          | none =>
            exact .inr (.inr (.inr (.inr ⟨hs, hp', by simp [hf, fetchBytes, hb], .inr ⟨b0, by omega, hb⟩⟩)))
          | some bs =>
            obtain ⟨n, hn⟩ : ∃ n, instrLen b0 = n + 1 :=
              ⟨instrLen b0 - 1, by have := instrLen_pos b0; omega⟩
            obtain ⟨b, bs', h1, h2, rfl⟩ := Memory.readBytes_head (hn ▸ hb)
            obtain rfl : b = b0 := by rw [hr] at h1; exact (Option.some.inj h1).symm
            have hlen : bs'.length + 1 = instrLen b := by rw [Memory.readBytes_length h2, hn]
            refine .inr (.inr (.inr (.inl ⟨hs, hp', b, bs', rfl, by omega, hb, ?_⟩)))
            simp [hf, fetchBytes, hb, decode_exact hlen]
  · exact .inl ⟨hs, by simp [fetch, hs]⟩

/-- In a buffer that holds exactly the offsets below `plen`, the fetch never meets a hole. -/
theorem fetch_no_hole {s : State} (h : s.bufferOk) (a : Nat) : fetch s ≠ .hole a := by
  intro hf
  rcases fetch_cases s with ⟨_, hc⟩ | ⟨_, _, hc⟩ | ⟨_, _, _, _, _, hc⟩ | ⟨_, _, _, _, _, _, _, hc⟩ | ⟨_, hp, _, hn⟩
  all_goals first | (rw [hc] at hf; cases hf) | skip
  rcases hn with hn | ⟨b0, hlen, hn⟩
  · have := (Memory.read_isSome_lt h.1 s.pc.toNat).mpr hp
    simp [hn] at this
  · have : (s.prog.readBytes s.pc.toNat (instrLen b0)).isSome :=
      Memory.readBytes_isSome fun k _ hk => (Memory.read_isSome_lt h.1 k).mpr (by omega)
    simp [hn] at this

/-- Decoding a byte list looks at the instruction's own bytes only. -/
theorem decode_take {bs : List Byte} {b0 : Byte} {i : Instr} {rest : List Byte}
    (h : decode (b0 :: bs) = .ok (i, rest)) : decode ((b0 :: bs).take (instrLen b0)) = .ok (i, []) := by
  obtain ⟨n, hn⟩ : ∃ n, instrLen b0 = n + 1 := ⟨instrLen b0 - 1, by have := instrLen_pos b0; omega⟩
  have h4 : n ≤ 3 := by have := instrLen_le b0; omega
  simp only [decode] at h
  split at h
  · cases h
  · rename_i hl
    cases h
    rw [hn, List.take_succ_cons, decode_exact (by simp; omega)]
    have hi : decodeInstr b0 ((bs.take n).getD 0 0#8) ((bs.take n).getD 1 0#8) ((bs.take n).getD 2 0#8) =
        decodeInstr b0 (bs.getD 0 0#8) (bs.getD 1 0#8) (bs.getD 2 0#8) := by
      cases ho : Op.ofByte b0 with
      | none => simp [decodeInstr, ho]
      | some op =>
        obtain rfl := Op.code_of_ofByte ho
        rw [instrLen_code] at hn
        cases op <;> simp only [Op.format, Format.length] at hn <;>
          simp [decodeInstr, Op.ofByte, Op.code, ← Nat.succ.inj hn]
    rw [hi]

/-- A table word is the instruction the next step fetches, from any state. -/
theorem fetch_withFetchWord {s : State} {nbits w : Nat} {i : Instr} (h : decodeTableWord nbits w = some i) :
    fetch (s.withFetchWord nbits w) = .instr i := by
  have hlen : 4 ≤ (tableBytes nbits w).length := by simp [tableBytes]; omega
  unfold decodeTableWord at h
  cases hb : tableBytes nbits w with
  | nil => simp [hb] at hlen
  | cons b0 bs =>
    rw [hb] at h
    split at h
    · rename_i j rest hd
      cases h
      have h4 := instrLen_le b0
      have h1 := instrLen_pos b0
      rw [hb] at hlen
      have hr : (s.prog.writeBytes s.pc.toNat (b0 :: bs)).readBytes s.pc.toNat (instrLen b0) =
          some ((b0 :: bs).take (instrLen b0)) := Memory.readBytes_writeBytes _ _ _ _ (by omega)
      obtain ⟨n, hn⟩ : ∃ n, instrLen b0 = n + 1 := ⟨instrLen b0 - 1, by omega⟩
      obtain ⟨b, _, h0, _, he⟩ := Memory.readBytes_head (hn ▸ hr)
      rw [List.take_succ_cons] at he
      obtain rfl : b0 = b := (List.cons.inj he).1
      have hf : fetchBytes (s.withFetchWord nbits w) b0 = .instr i := by
        simp only [fetchBytes, State.withFetchWord, hb, hr, decode_take hd]
      have hs : (s.withFetchWord nbits w).status = .run := rfl
      have hp : (s.withFetchWord nbits w).pc = s.pc := rfl
      have hl : s.pc.toNat + 4 ≤ (s.withFetchWord nbits w).plen := by
        simp only [State.withFetchWord, hb]
        omega
      have h0' : (s.withFetchWord nbits w).prog.read (s.withFetchWord nbits w).pc.toNat = some b0 := by
        simpa only [State.withFetchWord, hb] using h0
      rw [fetch, if_neg (by simp [hs]), if_neg (by rw [hp]; omega)]
      simp only [h0']
      rw [if_neg (by rw [hp]; omega), hf]
    · cases h

/-- What a step does, by what the fetch finds. -/
theorem step_idle {s : State} {r : StopReason} (h : fetch s = .idle r) : step s = .next (s.report r) := by
  simp [step, h]

theorem step_instr {s : State} {i : Instr} (h : fetch s = .instr i) : step s = exec i s := by
  simp [step, h]

theorem step_hole {s : State} {a : Nat} (h : fetch s = .hole a) : step s = .fault (.programHole a) := by
  simp [step, h]

end Sys2Proof.Machine
end

