-- ==== Sys2Proof/Laws/PerInstr.lean ====
section
/-! SUPPORT. Statements for every instruction as a term. LengthFromOpcode: the encoding of a well-formed
instruction begins with its opcode byte and has the length that byte alone gives (30_encoding.md R60,
R72). -/

namespace Sys2Proof.Laws.LengthFromOpcode

/-- The first byte emitted is the opcode byte, and it fixes how many bytes there are. -/
def Statement (i : Instr) : Prop :=
  i.wf = true → (encode i).head? = some (firstByte i) ∧ (encode i).length = instrLen (firstByte i)

theorem load (d : Byte) (imm : BitVec 16) : Statement (.load d imm) := fun _ => ⟨rfl, rfl⟩

theorem add (a b d : Byte) : Statement (.add a b d) := fun _ => ⟨rfl, rfl⟩

theorem sub (a b d : Byte) : Statement (.sub a b d) := fun _ => ⟨rfl, rfl⟩

theorem mul (a b d : Byte) : Statement (.mul a b d) := fun _ => ⟨rfl, rfl⟩

theorem div (a b d : Byte) : Statement (.div a b d) := fun _ => ⟨rfl, rfl⟩

theorem hlt : Statement (.hlt) := fun _ => ⟨rfl, rfl⟩

theorem jmp (r : Byte) : Statement (.jmp r) := fun _ => ⟨rfl, rfl⟩

theorem jmpf (r : Byte) : Statement (.jmpf r) := fun _ => ⟨rfl, rfl⟩

theorem jmpb (r : Byte) : Statement (.jmpb r) := fun _ => ⟨rfl, rfl⟩

theorem eq (a b pad : Byte) : Statement (.eq a b pad) := fun _ => ⟨rfl, rfl⟩

theorem neq (a b pad : Byte) : Statement (.neq a b pad) := fun _ => ⟨rfl, rfl⟩

theorem gt (a b pad : Byte) : Statement (.gt a b pad) := fun _ => ⟨rfl, rfl⟩

theorem lt (a b pad : Byte) : Statement (.lt a b pad) := fun _ => ⟨rfl, rfl⟩

theorem gtq (a b pad : Byte) : Statement (.gtq a b pad) := fun _ => ⟨rfl, rfl⟩

theorem ltq (a b pad : Byte) : Statement (.ltq a b pad) := fun _ => ⟨rfl, rfl⟩

theorem jeq (r : Byte) : Statement (.jeq r) := fun _ => ⟨rfl, rfl⟩

theorem aloc (ign : Byte) : Statement (.aloc ign) := fun _ => ⟨rfl, rfl⟩

theorem illegal (b0 : Byte) : Statement (.illegal b0) := fun h =>
  ⟨rfl, (instrLen_illegal (b := b0) (by simpa [Instr.wf] using h)).symm⟩

end Sys2Proof.Laws.LengthFromOpcode
end

