-- ==== Sys2Proof/Laws/Ports.lean ====
section
/-! SUPPORT. What the host transitions other than `Step` can do. -/

namespace Sys2Proof.Machine

/-- `Append` with room: one byte more, at `plen`. -/
theorem State.appendByte_room {s : State} (b : Byte) (h : s.plen < s.progCap) :
    s.appendByte b = { s with prog := s.prog.write s.plen b, plen := s.plen + 1 } :=
  if_pos h

/-- `Append` at capacity: nothing. -/
theorem State.appendByte_full {s : State} (b : Byte) (h : s.progCap ≤ s.plen) : s.appendByte b = s :=
  if_neg (Nat.not_lt.mpr h)

/-- `SetReg` on a register that exists. -/
theorem State.hostSetReg_ok {s : State} {i : Byte} (v : Word) (h : i.toNat < s.nreg) :
    s.hostSetReg i v = s.setReg i.toNat v :=
  if_pos h

/-- `SetReg` on an index beyond the register file: nothing. -/
theorem State.hostSetReg_bad {s : State} {i : Byte} (v : Word) (h : s.nreg ≤ i.toNat) : s.hostSetReg i v = s :=
  if_neg (Nat.not_lt.mpr h)

/-- `Append` keeps the buffer holding exactly the offsets below `plen`, within its capacity. -/
theorem State.appendByte_bufferOk {s : State} (b : Byte) (h : s.bufferOk) : (s.appendByte b).bufferOk := by
  by_cases hr : s.plen < s.progCap
  · rw [State.appendByte_room b hr]
    exact ⟨Memory.write_at_end b h.1, hr⟩
  · rw [State.appendByte_full b (by omega)]
    exact h

end Sys2Proof.Machine
end

