-- ==== Sys2Proof/Tests/Slice0.lean ====
section
/-! SUPPORT. Tests on fixed values. Each expected result is the spec's: the vectors of 95_test_vectors.md,
named by their labels there, or a word written out from the encoding of 30_encoding.md. The last part
holds, for each statement with hypotheses, a state and operands that meet them together. -/

namespace Sys2Proof.Tests

open Sys2Proof.Machine

/-- After `Reset` with NREG 32: the bytes appended, then the registers set (the vectors' start state). -/
def start (bytes : List Byte) (sets : List (Byte × Word)) : State := runStart 32 65536 bytes sets

/-- Two registers set to operands, for the bytes `op 00 01 02`. -/
def two (v w : Word) : List (Byte × Word) := [(0#8, v), (1#8, w)]

/-- Read something of the next state. -/
def look {α : Type} (f : State → α) : Result → Option α
  | .next t => some (f t)
  | .fault _ => none
  | .refused _ => none

/-- Register 2, the remainder and the program counter. -/
def quot (s : State) : Word × Word × Word := (s.reg 2, s.rem, s.pc)

/-- Status, cause, the fault registers and the program counter. -/
def report (s : State) : Status × Cause × Word × Byte × Word :=
  (s.status, s.cause, s.faultPc, s.faultOp, s.pc)

/-- A jump of register 3 at an offset, zero bytes before it, `pc` there, the register and the flag set. -/
def jumpAt (pc0 : Nat) (op : Byte) (v : Word) (f : Bool) : State :=
  { start (List.replicate pc0 0#8 ++ [op, 3#8]) [(3#8, v)] with pc := BitVec.ofNat 32 pc0, eqFlag := f }

/-! ### Well-formedness: ILLEGAL's byte is the one check -/

theorem test_wf_refuses_defined_byte : (Instr.illegal 16#8).wf = false := by decide
theorem test_wf_refuses_zero : (Instr.illegal 0#8).wf = false := by decide
theorem test_wf_admits_17 : (Instr.illegal 17#8).wf = true := by decide
theorem test_wf_admits_any_index : (Instr.add 255#8 255#8 255#8).wf = true := by decide

theorem test_config_suggested : Config.suggested.wf = true := by decide
theorem test_config_refuses_two_registers : ({ Config.suggested with nreg := 2 } : Config).wf = false := by decide
theorem test_config_refuses_257_registers : ({ Config.suggested with nreg := 257 } : Config).wf = false := by decide
theorem test_config_refuses_no_buffer : ({ Config.suggested with progCap := 0 } : Config).wf = false := by decide
theorem test_config_refuses_large_buffer :
    ({ Config.suggested with progCap := 2147483648 } : Config).wf = false := by decide
theorem test_config_refuses_defined_byte :
    ({ Config.suggested with illegalByte := 16#8 } : Config).wf = false := by decide

/-! ### Decoding: one word for each constructor, from the formats of 30_encoding.md -/

theorem test_decode_load : decode [0x00#8, 0x01#8, 0x03#8, 0xE8#8] = .ok (.load 1#8 1000#16, []) := by decide
theorem test_decode_add : decode [0x01#8, 0x00#8, 0x01#8, 0x02#8] = .ok (.add 0#8 1#8 2#8, []) := by decide
theorem test_decode_sub : decode [0x02#8, 0x00#8, 0x01#8, 0x02#8] = .ok (.sub 0#8 1#8 2#8, []) := by decide
theorem test_decode_mul : decode [0x03#8, 0x02#8, 0x01#8, 0x04#8] = .ok (.mul 2#8 1#8 4#8, []) := by decide
theorem test_decode_div : decode [0x04#8, 0x00#8, 0x01#8, 0x02#8] = .ok (.div 0#8 1#8 2#8, []) := by decide
theorem test_decode_hlt : decode [0x05#8, 0x00#8] = .ok (.hlt, [0#8]) := by decide
theorem test_decode_jmp : decode [0x06#8, 0x05#8] = .ok (.jmp 5#8, []) := by decide
theorem test_decode_jmpf : decode [0x07#8, 0x03#8] = .ok (.jmpf 3#8, []) := by decide
theorem test_decode_jmpb : decode [0x08#8, 0x02#8] = .ok (.jmpb 2#8, []) := by decide
theorem test_decode_eq : decode [0x09#8, 0x00#8, 0x01#8, 0xFF#8] = .ok (.eq 0#8 1#8 255#8, []) := by decide
theorem test_decode_neq : decode [0x0A#8, 0x00#8, 0x01#8, 0x00#8] = .ok (.neq 0#8 1#8 0#8, []) := by decide
theorem test_decode_gt : decode [0x0B#8, 0x00#8, 0x01#8, 0x00#8] = .ok (.gt 0#8 1#8 0#8, []) := by decide
theorem test_decode_lt : decode [0x0C#8, 0x00#8, 0x01#8, 0x00#8] = .ok (.lt 0#8 1#8 0#8, []) := by decide
theorem test_decode_gtq : decode [0x0D#8, 0x03#8, 0x01#8, 0x00#8] = .ok (.gtq 3#8 1#8 0#8, []) := by decide
theorem test_decode_ltq : decode [0x0E#8, 0x00#8, 0x01#8, 0x00#8] = .ok (.ltq 0#8 1#8 0#8, []) := by decide
theorem test_decode_jeq : decode [0x0F#8, 0x04#8] = .ok (.jeq 4#8, []) := by decide
theorem test_decode_aloc : decode [0x10#8, 0x07#8] = .ok (.aloc 7#8, []) := by decide
theorem test_decode_illegal : decode [0x11#8, 0x00#8] = .ok (.illegal 17#8, [0#8]) := by decide
theorem test_decode_truncated : decode [0x0C#8, 0x00#8, 0x01#8] = .error (.truncated 0x0C#8) := by decide

/-- The table's numbers have the opcode byte on top (R87): its ADD row's match value with operands. -/
theorem test_table_word_add : decodeTableWord 32 0x01000102 = some (.add 0#8 1#8 2#8) := by decide
theorem test_table_word_jeq : decodeTableWord 16 0x0F04 = some (.jeq 4#8) := by decide
theorem test_table_word_illegal : decodeTableWord 8 0x80 = some (.illegal 0x80#8) := by decide

/-- A table word runs as the first instruction after reset. -/
theorem test_fetch_word : look State.pc (step (State.reset.withFetchWord 16 0x1007)) = some 2#32 := by decide

/-! ### Instructions -/

/-- S1. -/
theorem test_load_s1 :
    look (fun t => (t.reg 1, t.pc)) (step (start [0x00#8, 0x01#8, 0x03#8, 0xE8#8] [])) = some (1000#32, 4#32) := by
  decide
/-- L2: zero-extended, not -1. -/
theorem test_load_l2 :
    look (fun t => t.reg 0) (step (start [0x00#8, 0x00#8, 0xFF#8, 0xFF#8] [])) = some 0x0000FFFF#32 := by decide
/-- A2: INT_MAX + 1. -/
theorem test_add_a2 : look quot (exec (.add 0#8 1#8 2#8) (start [] (two 0x7FFFFFFF#32 1#32))) =
    some (0x80000000#32, 0#32, 4#32) := by decide
/-- A31: the sources are read before the destination is written. -/
theorem test_add_a31 : look (fun t => t.reg 0) (exec (.add 0#8 0#8 0#8) (start [] [(0#8, 5#32)])) =
    some 10#32 := by decide
/-- A5: the order is a - b. -/
theorem test_sub_a5 : look quot (exec (.sub 0#8 1#8 2#8) (start [] (two 5#32 7#32))) =
    some (0xFFFFFFFE#32, 0#32, 4#32) := by decide
/-- A7. -/
theorem test_sub_a7 : look quot (exec (.sub 0#8 1#8 2#8) (start [] (two 0x80000000#32 1#32))) =
    some (0x7FFFFFFF#32, 0#32, 4#32) := by decide
/-- A10. -/
theorem test_mul_a10 : look quot (exec (.mul 0#8 1#8 2#8) (start [] (two 65535#32 65535#32))) =
    some (0xFFFE0001#32, 0#32, 4#32) := by decide
/-- A15. -/
theorem test_mul_a15 : look quot (exec (.mul 0#8 1#8 2#8) (start [] (two 46341#32 46341#32))) =
    some (0x80001219#32, 0#32, 4#32) := by decide
/-- A17: toward zero, the remainder's sign is the dividend's. -/
theorem test_div_a17 : look quot (exec (.div 0#8 1#8 2#8) (start [] (two 0xFFFFFFEF#32 5#32))) =
    some (0xFFFFFFFD#32, 0xFFFFFFFE#32, 4#32) := by decide
/-- A39: REG_INDEX comes before DIV_BY_ZERO. -/
theorem test_div_a39 : look report (exec (.div 32#8 1#8 2#8) (start [] [])) =
    some (.fault, .regIndex, 0#32, 4#8, 0#32) := by decide
/-- S4, C2. -/
theorem test_hlt_s4 : look report (step (start [5#8, 0#8, 0#8, 0#8] [])) =
    some (.halt, .none, 0#32, 0#8, 1#32) := by decide
/-- C3: a target beyond the buffer is no fault. -/
theorem test_jmp_c3 : look report (step (jumpAt 10 6#8 100#32 false)) =
    some (.run, .none, 0#32, 0#8, 100#32) := by decide
/-- C6. -/
theorem test_jmp_c6 : look report (step (jumpAt 10 6#8 0xFFFFFFFF#32 false)) =
    some (.fault, .pcRange, 10#32, 6#8, 10#32) := by decide
/-- C10: a negative distance goes backward. -/
theorem test_jmpf_c10 : look State.pc (step (jumpAt 16 7#8 0xFFFFFFEE#32 false)) = some 0#32 := by decide
/-- C12. -/
theorem test_jmpf_c12 : look State.pc (step (jumpAt 16 7#8 0x7FFFFFFF#32 false)) = some 2147483665#32 := by decide
/-- C17. -/
theorem test_jmpb_c17 : look report (step (jumpAt 26 8#8 29#32 false)) =
    some (.fault, .pcRange, 26#32, 8#8, 26#32) := by decide
/-- C19. -/
theorem test_jmpb_c19 : look State.pc (step (jumpAt 26 8#8 0x80000000#32 false)) = some 2147483676#32 := by decide
/-- C20. -/
theorem test_jeq_c20 : look (fun t => (t.pc, t.eqFlag)) (step (jumpAt 20 15#8 32#32 true)) = some (32#32, true) := by
  decide
/-- C23: the target is not computed when the jump is not taken. -/
theorem test_jeq_c23 : look report (step (jumpAt 20 15#8 0xFFFFFFFB#32 false)) =
    some (.run, .none, 0#32, 0#8, 22#32) := by decide
/-- S3. -/
theorem test_eq_s3 : look State.eqFlag (step (start [9#8, 0#8, 1#8, 0#8] (two 10#32 10#32))) = some true := by decide
/-- M9: the pad byte is not a register index. -/
theorem test_eq_m9 : look (fun t => (t.eqFlag, t.pc)) (step (start [9#8, 0#8, 1#8, 0xFF#8] (two 4#32 4#32))) =
    some (true, 4#32) := by decide
/-- M1: the flag is cleared. -/
theorem test_neq_m1 :
    look State.eqFlag (exec (.neq 0#8 1#8 0#8) { start [] (two 10#32 10#32) with eqFlag := true }) = some false := by
  decide
/-- M2. -/
theorem test_neq_m2 : look State.eqFlag (exec (.neq 0#8 1#8 0#8) (start [] (two 10#32 20#32))) = some true := by decide
/-- M5: signed. -/
theorem test_gt_m5 : look State.eqFlag (exec (.gt 0#8 1#8 0#8) (start [] (two 1#32 0xFFFFFFFF#32))) = some true := by
  decide
/-- M1. -/
theorem test_gt_m1 : look State.eqFlag (exec (.gt 0#8 1#8 0#8) { start [] (two 10#32 10#32) with eqFlag := true }) =
    some false := by decide
/-- M6. -/
theorem test_lt_m6 :
    look State.eqFlag (exec (.lt 0#8 1#8 0#8) (start [] (two 0x80000000#32 0x7FFFFFFF#32))) = some true := by decide
/-- M7. -/
theorem test_lt_m7 :
    look State.eqFlag (exec (.lt 0#8 1#8 0#8) { start [] (two 0x80000000#32 0x80000000#32) with eqFlag := true }) =
    some false := by decide
/-- M7. -/
theorem test_gtq_m7 :
    look State.eqFlag (exec (.gtq 0#8 1#8 0#8) (start [] (two 0x80000000#32 0x80000000#32))) = some true := by decide
/-- M4. -/
theorem test_gtq_m4 :
    look State.eqFlag (exec (.gtq 0#8 1#8 0#8) { start [] (two 0xFFFFFFFF#32 1#32) with eqFlag := true }) =
    some false := by decide
/-- M4. -/
theorem test_ltq_m4 : look State.eqFlag (exec (.ltq 0#8 1#8 0#8) (start [] (two 0xFFFFFFFF#32 1#32))) = some true := by
  decide
/-- M3. -/
theorem test_ltq_m3 : look State.eqFlag (exec (.ltq 0#8 1#8 0#8) { start [] (two 20#32 10#32) with eqFlag := true }) =
    some false := by decide
/-- R2 of V-RSV: the byte is not a register index. -/
theorem test_aloc_r2 : look report (step (start [0x10#8, 0xFF#8] [])) = some (.run, .none, 0#32, 0#8, 2#32) := by decide
/-- R3 of V-RSV. -/
theorem test_aloc_r3 : step (start [0x10#8] []) = .next ((start [0x10#8] []).report .trunc) := rfl
/-- R6 of V-RSV. -/
theorem test_illegal_r6 : look report (step (start [0x64#8, 0#8, 0#8, 0#8] [])) =
    some (.fault, .illegalOpcode, 0#32, 0x64#8, 1#32) := by decide

/-! ### Host transitions -/

/-- T1. -/
theorem test_step_t1 : look State.stopReason (step (start [] [])) = some .eop := by decide
/-- T6: an index beyond the register file. -/
theorem test_setreg_t6 : transition (.setReg 40#8 5#32) (start [] []) = .next (start [] []) := rfl
/-- T7: the fifth byte is dropped. -/
theorem test_append_t7 : (runStart 32 4 [0#8, 1#8, 3#8, 0xE8#8, 5#8] []).plen = 4 := by decide
/-- T8: only the reset happens. -/
theorem test_edge_t8 : arbitrate ⟨true, true, 5#8, true, false, true, 1#8, 7#32, 0#8⟩ = some .reset := by decide
/-- T9: only the append happens. -/
theorem test_edge_t9 : arbitrate ⟨false, true, 5#8, true, false, false, 0#8, 0#32, 0#8⟩ = some (.append 5#8) := by decide

/-! ### The assembler (V-ASM) -/

/-- X1: `load $1 #1000`. -/
theorem test_asm_x1 : assemble 0xFF#8 ['l', 'o', 'a', 'd', ' ', '$', '1', ' ', '#', '1', '0', '0', '0'] =
    some (.ok [0x00#8, 0x01#8, 0x03#8, 0xE8#8]) := rfl
/-- X3: `hlt` with a line feed. -/
theorem test_asm_x3 : assemble 0xFF#8 ['h', 'l', 't', '\n'] = some (.ok [0x05#8]) := rfl
/-- X20: `load $0 #70000` keeps the low 16 bits. -/
theorem test_asm_x20 : assemble 0xFF#8 ['l', 'o', 'a', 'd', ' ', '$', '0', ' ', '#', '7', '0', '0', '0', '0'] =
    some (.ok [0x00#8, 0x00#8, 0x11#8, 0x70#8]) := rfl
/-- X22: `load $256 #0` fails to parse. -/
theorem test_asm_x22 : parseLine ['l', 'o', 'a', 'd', ' ', '$', '2', '5', '6', ' ', '#', '0'] = none := rfl
/-- X24: `load $1 #-5` fails to parse. -/
theorem test_asm_x24 : parseLine ['l', 'o', 'a', 'd', ' ', '$', '1', ' ', '#', '-', '5'] = none := rfl
/-- X26: `hlt #1 #2 #3`, the longest encoding. -/
theorem test_asm_x26 : assemble 0xFF#8 ['h', 'l', 't', ' ', '#', '1', ' ', '#', '2', ' ', '#', '3'] =
    some (.ok [5#8, 0#8, 1#8, 0#8, 2#8, 0#8, 3#8]) := rfl
/-- X27: a fourth operand is trailing input. -/
theorem test_asm_x27 :
    parseLine ['a', 'd', 'd', ' ', '$', '0', ' ', '$', '1', ' ', '$', '2', ' ', '$', '3'] = none := rfl
/-- X29: matching is case-sensitive, `LOAD` is ILLEGAL. -/
theorem test_asm_x29 : assemble 0xAB#8 ['L', 'O', 'A', 'D', ' ', '$', '1', ' ', '#', '5'] =
    some (.ok [0xAB#8, 1#8, 0#8, 5#8]) := rfl
/-- X30: a directive parses and cannot be encoded. -/
theorem test_asm_x30 : assemble 0xFF#8 ['.', 'a', 'b', 'c'] = some (.error .noOpcode) := rfl
/-- X31: the empty line fails to parse. -/
theorem test_asm_x31 : parseLine [] = none := rfl
/-- R83's example: the hexadecimal form of X1's bytes. -/
theorem test_hex_x1 : toHex [0x00#8, 0x01#8, 0x03#8, 0xE8#8] = [['0', '0'], ['0', '1'], ['0', '3'], ['e', '8']] := rfl

/-! ### Witnesses: for each statement with hypotheses, values that meet them together -/

/-- A machine with the P6 program (load, div by zero) after its first step, a halted one, a faulted one. -/
def divZero : State := { start [0#8, 0#8, 0#8, 7#8, 4#8, 0#8, 1#8, 2#8] [(0#8, 7#32)] with pc := 4#32 }
def halted : State := (start [5#8] []).halt
def faulted : State := (start [0x11#8] []).raiseFault .illegalOpcode 0x11#8

theorem witness_inv_divZero : divZero.Inv :=
  ⟨⟨by decide, by decide, by decide, by decide⟩, ⟨by decide, by decide⟩, ⟨fun _ => by decide, fun _ => by decide⟩,
    fun h => absurd h (by decide)⟩
/-- The invariant also holds of a stopped state, whose fault report it then says is true. -/
theorem witness_inv_faulted : faulted.Inv ∧ faulted.status = .fault :=
  ⟨⟨⟨by decide, by decide, by decide, by decide⟩, ⟨by decide, by decide⟩,
    ⟨fun h => absurd h (by decide), fun h => absurd h (by decide)⟩,
    fun _ => ⟨by decide, Nat.le_refl 17, by decide⟩⟩, by decide⟩
/-- And of the empty machine after reset, where the next step finds the end of the program. -/
theorem witness_inv_start : (start [] []).Inv :=
  ⟨⟨by decide, by decide, by decide, by decide⟩, ⟨by decide, by decide⟩, ⟨fun _ => by decide, fun _ => by decide⟩,
    fun h => absurd h (by decide)⟩

theorem witness_DecodeOfEncode : (Instr.illegal 17#8).wf = true ∧ (Instr.load 255#8 65535#16).wf = true := by decide
theorem witness_EncodeOfDecode : ∃ i rest, decode [0x10#8, 0xFF#8, 0x05#8] = .ok (i, rest) :=
  ⟨.aloc 0xFF#8, [5#8], by decide⟩
/-- Each of the three sets at its ends. -/
theorem witness_LengthByOpcodeByte :
    (0#8).toNat ∈ [0, 1, 2, 3, 4, 9, 10, 11, 12, 13, 14] ∧ (14#8).toNat ∈ [0, 1, 2, 3, 4, 9, 10, 11, 12, 13, 14] ∧
    (6#8).toNat ∈ [6, 7, 8, 15, 16] ∧ (16#8).toNat ∈ [6, 7, 8, 15, 16] ∧ (5#8).toNat = 5 ∧ 17 ≤ (17#8).toNat ∧
    17 ≤ (255#8).toNat := by decide
theorem witness_UndefinedBytesDecodeIllegal : 17 ≤ (17#8).toNat ∧ 17 ≤ (255#8).toNat := by decide
theorem witness_OpcodeMapRoundTrip : 17 ≤ (17#8).toNat := by decide
theorem witness_CanonicalLinesAssemble : ∃ line, canonicalLine (.eq 0#8 255#8 7#8) = some line := ⟨_, rfl⟩
/-- One value for each clause: no opcode, a label operand, and three operands of which one is absent. -/
theorem witness_EncoderEmitsOperands :
    (⟨none, some ['a'], none, none, none⟩ : AsmInstr).opcode = none ∧
    emitted (.labelUsage ['a']) = none ∧
    (none : Option Token).elim (some []) emitted = some [] ∧
    (some (Token.register 255#8)).elim (some []) emitted = some [255#8] ∧
    (some (Token.number 70000#32)).elim (some []) emitted = some [0x11#8, 0x70#8] := by decide
theorem witness_ParsedInstructionShape : ∃ x, parseLine ['a', 'l', 'o', 'c', ' ', '$', '2', '5', '5'] = some x :=
  ⟨_, rfl⟩
theorem witness_ParsedLinesEncode :
    (∃ x, parseLine ['h', 'l', 't'] = some x ∧ x.directive = none) ∧
    (∃ x, parseLine ['.', 'a'] = some x ∧ x.directive.isSome = true) := ⟨⟨_, rfl, rfl⟩, ⟨_, rfl, rfl⟩⟩
theorem witness_ResetMeetsInvariant :
    (3 ≤ 3 ∧ 3 ≤ 256 ∧ 1 ≤ 1 ∧ 1 ≤ 2147483647) ∧ (3 ≤ 256 ∧ 256 ≤ 256 ∧ 1 ≤ 2147483647 ∧ 2147483647 ≤ 2147483647) := by
  decide
/-- The LOAD of S1 is at `pc`, and ends where the buffer ends. -/
theorem witness_StepExecutesDecoded : ∃ (s : State) (bs : List Byte) (i : Instr), s.status = .run ∧ s.prog.readBytes s.pc.toNat bs.length = some bs ∧
    s.pc.toNat + bs.length ≤ s.plen ∧ decode bs = .ok (i, []) :=
  ⟨start [0#8, 1#8, 3#8, 0xE8#8] [], [0#8, 1#8, 3#8, 0xE8#8], .load 1#8 1000#16, by decide, by decide, by decide,
    by decide⟩
theorem witness_StoppedMachineStays : halted.status = .halt ∧ faulted.status = .fault := by decide
/-- At the end exactly, and far beyond it. -/
theorem witness_EndOfProgramReported :
    ((start [] []).status = .run ∧ (start [] []).plen ≤ (start [] []).pc.toNat) ∧
    (({ start [5#8] [] with pc := 0xFFFFFFFF#32 } : State).plen ≤ 4294967295) := by decide
/-- The host appends past `pc`, and the next step answers. -/
theorem witness_EndOfProgramReported_append : ∃ t : State, (start [] []).pc.toNat < ((start [] []).appendBytes [5#8]).plen ∧
    step ((start [] []).appendBytes [5#8]) = .next t := ⟨_, by decide, rfl⟩
theorem witness_LengthByOpcodeByte_decode : ∃ (i : Instr) (rest : List Byte), decode (6#8 :: [0#8, 9#8]) = .ok (i, rest) :=
  ⟨_, _, rfl⟩
theorem witness_ResetLeaves : (⟨true, true, 0#8, true, true, true, 0#8, 0#32, 0#8⟩ : Inputs).rst = true := rfl
theorem witness_SetRegWritesOneRegister_host : ∃ t, (Transition.append 1#8) ≠ .reset ∧ (Transition.append 1#8) ≠ .step ∧
    transition (.append 1#8) (start [5#8] []) = .next t ∧ 0 < (start [5#8] []).plen :=
  ⟨_, by decide, by decide, rfl, by decide⟩
/-- Every opcode but HLT, its opcode byte alone in the buffer: the hypotheses of `CutShort`. -/
theorem witness_CutShort : ∀ op ∈ allOps, op ≠ .hlt →
    (start [op.code] []).status = .run ∧ (start [op.code] []).pc.toNat < (start [op.code] []).plen ∧
    (start [op.code] []).prog.read (start [op.code] []).pc.toNat = some op.code ∧
    (start [op.code] []).plen < (start [op.code] []).pc.toNat + op.format.length := by decide
theorem witness_IncompleteInstructionReported : ∃ s t, step s = .next t ∧ t.stopReason = .trunc ∧ s.status = .run :=
  ⟨start [0x0F#8] [], _, rfl, rfl, rfl⟩
/-- A running machine for the conditional clause; an ILLEGAL byte; a bad index in a whole instruction. -/
theorem witness_OutcomeFollowsPriority :
    (divZero.Inv ∧ ∃ t, step divZero = .next t) ∧
    (divZero.status = .run ∧ divZero.pc.toNat < divZero.plen) ∧
    (17 ≤ (0x11#8).toNat ∧ (start [0x11#8] []).prog.read 0 = some 0x11#8) ∧
    ((start [6#8, 32#8] []).prog.readBytes 0 2 = some [6#8, 32#8] ∧ decode [6#8, 32#8] = .ok (.jmp 32#8, []) ∧
      0 + instrLen 6#8 ≤ (start [6#8, 32#8] []).plen ∧
      ∃ f ∈ regFields (.jmp 32#8), (start [6#8, 32#8] []).nreg ≤ f.toNat) :=
  ⟨⟨witness_inv_divZero, _, rfl⟩, by decide, by decide, by decide⟩
theorem witness_LoadReadsBigEndian : ∃ s : State, s.status = .run ∧ s.pc.toNat + 4 ≤ s.plen ∧
    s.prog.readBytes s.pc.toNat 4 = some [0#8, 31#8, 0xFF#8, 0xFE#8] ∧ (31#8).toNat < s.nreg :=
  ⟨start [0#8, 31#8, 0xFF#8, 0xFE#8] [], by decide⟩
theorem witness_FetchReadsFourBytesAtMost : ∃ (s : State) (m : Memory), m ≠ s.prog ∧
    ∀ a, s.pc.toNat ≤ a → a < s.pc.toNat + 4 → m.read a = s.prog.read a :=
  ⟨start [] [], [(4, 5#8)], by decide, fun a _ h => by
    have h4 : (4 : Nat) ≠ a := by rintro rfl; revert h; decide
    simp [Memory.read, Memory.unlisted, h4, start, runStart, State.appendBytes, State.resetFor]⟩
/-- `PcMoved`'s premise, from offset 0 and at the last offset that meets it. -/
theorem witness_PcMoved : (start [] []).pc.toNat + 4 ≤ 4294967295 ∧
    ({ start [] [] with pc := 0xFFFFFFFB#32 } : State).pc.toNat + 4 ≤ 4294967295 := by decide
/-- The register index conditions of the instruction rules, both ways, at the ends of the register file. -/
theorem witness_register_indices : (31#8).toNat < (start [] []).nreg ∧ (start [] []).nreg ≤ (32#8).toNat ∧
    (∃ f ∈ [0#8, 0#8, 32#8], (start [] []).nreg ≤ f.toNat) := by decide
/-- DIV's three cases. -/
theorem witness_DivWritesQuotientAndRemainder :
    ((start [] (two 5#32 0#32)).reg 1).toInt = 0 ∧
    (((start [] (two 0x80000000#32 0xFFFFFFFF#32)).reg 0).toInt = -2147483648 ∧
      ((start [] (two 0x80000000#32 0xFFFFFFFF#32)).reg 1).toInt = -1) ∧
    (((start [] (two 0x80000000#32 2#32)).reg 1).toInt ≠ 0 ∧
      ¬(((start [] (two 0x80000000#32 2#32)).reg 0).toInt = -2147483648 ∧
        ((start [] (two 0x80000000#32 2#32)).reg 1).toInt = -1)) := by decide
theorem witness_DivisionLaw : ∃ t, exec (.div 0#8 1#8 2#8) (start [] (two 0x80000000#32 2#32)) = .next t ∧
    t.stopReason = .retired := ⟨_, rfl, rfl⟩
/-- JMP and a taken JEQ: the least and the greatest target, and the least distance below the range. -/
theorem witness_absolute_targets :
    (0 ≤ ((start [] (two 0#32 0x7FFFFFFF#32)).reg 0).toInt ∧ ((start [] (two 0#32 0x7FFFFFFF#32)).reg 1).toInt ≤ 4294967295) ∧
    ((start [] (two 0xFFFFFFFF#32 0#32)).reg 0).toInt < 0 := by decide
/-- JMPF and JMPB: targets 0 and -1, and one above 2^32 - 1. -/
theorem witness_relative_targets :
    ((jumpAt 16 7#8 0xFFFFFFEE#32 false).pc.toNat + 2 + ((jumpAt 16 7#8 0xFFFFFFEE#32 false).reg 3).toInt = 0) ∧
    ((jumpAt 26 8#8 29#32 false).pc.toNat + 2 - ((jumpAt 26 8#8 29#32 false).reg 3).toInt < 0) ∧
    (4294967295 < (({ start [] [] with pc := 0xFFFFFFFF#32 } : State).pc.toNat : Int) + 2 + ((start [] []).reg 3).toInt) := by
  decide
theorem witness_JeqFollowsFlag : (jumpAt 20 15#8 32#32 true).eqFlag = true ∧ (jumpAt 20 15#8 32#32 false).eqFlag = false := by
  decide
theorem witness_IllegalTakesFault : 17 ≤ (17#8).toNat ∧ 17 ≤ (255#8).toNat := by decide
theorem witness_BadRegisterIndexFaults : ∃ f ∈ regFields (.ltq 0#8 32#8 0#8), (start [] []).nreg ≤ f.toNat := by decide
theorem witness_FaultWritesOnlyReport : ∃ t, (Instr.div 0#8 1#8 2#8).wf = true ∧
    exec (.div 0#8 1#8 2#8) divZero = .next t ∧ t.stopReason = .fault := ⟨_, rfl, rfl, rfl⟩
/-- No destination; a destination; a fault. -/
theorem witness_OnlyDestinationWritten :
    (destReg (.jmp 0#8) = none ∧ ∃ t, exec (.jmp 0#8) (start [] []) = .next t) ∧
    (destReg (.add 0#8 1#8 2#8) = some 2#8 ∧ ∃ t, exec (.add 0#8 1#8 2#8) (start [] []) = .next t) ∧
    (∃ t, exec (.add 0#8 1#8 32#8) (start [] []) = .next t ∧ t.stopReason ≠ .retired) :=
  ⟨⟨rfl, _, rfl⟩, ⟨rfl, _, rfl⟩, ⟨_, rfl, by decide⟩⟩
theorem witness_UnnamedRegistersIrrelevant : ∀ f ∈ regFields (.div 0#8 1#8 2#8), f.toNat ≠ 3 := by decide
theorem witness_OnlyComparisonsWriteFlag : ∃ t, exec (.eq 0#8 1#8 0#8) (start [] []) = .next t ∧
    t.eqFlag ≠ (start [] []).eqFlag := ⟨_, rfl, by decide⟩
theorem witness_OnlyDivWritesRemainder : ∃ t, exec (.div 0#8 1#8 2#8) (start [] (two 17#32 5#32)) = .next t ∧
    t.rem ≠ (start [] (two 17#32 5#32)).rem := ⟨_, rfl, by decide⟩
theorem witness_OnlyHaltAndFaultsWriteStatus : ∃ t, exec .hlt (start [] []) = .next t := ⟨_, rfl⟩
theorem witness_StepsNeverWriteProgram : ∃ t, step divZero = .next t := ⟨_, rfl⟩
theorem witness_StepKeepsInvariant : divZero.Inv ∧ ∃ t, step divZero = .next t := ⟨witness_inv_divZero, _, rfl⟩
theorem witness_StepAlwaysAnswers : divZero.Inv ∧ faulted.Inv ∧ (start [] []).Inv :=
  ⟨witness_inv_divZero, witness_inv_faulted.1, witness_inv_start⟩
theorem witness_TransitionsKeepMemoryForm : Memory.wf divZero.prog ∧
    ∃ t, transition (.append 5#8) divZero = .next t := ⟨by decide, _, rfl⟩
theorem witness_SequentialPcExact : divZero.Inv ∧ fetch divZero = .instr (.div 0#8 1#8 2#8) :=
  ⟨witness_inv_divZero, rfl⟩
theorem witness_FinishedStepsAreIdle : ∃ t, step (start [5#8] []) = .next t ∧ t.finished = true := ⟨_, rfl, rfl⟩
theorem witness_MoreFuelSameEnd : ∃ t, runUntilFinished (0 + 1) (start [5#8] []) = .next t ∧ t.finished = true :=
  ⟨_, rfl, rfl⟩
theorem witness_StickyUntilReset : halted.status ≠ .run ∧ Transition.step ≠ .reset ∧
    ∃ t, transition .step halted = .next t := ⟨by decide, by decide, _, rfl⟩
/-- Room for one byte; none. -/
theorem witness_AppendAddsOneByte : (runStart 32 1 [] []).plen < (runStart 32 1 [] []).progCap ∧
    (runStart 32 1 [5#8] []).progCap ≤ (runStart 32 1 [5#8] []).plen := by decide
theorem witness_SetRegWritesOneRegister : (31#8).toNat < (start [] []).nreg ∧ (start [] []).nreg ≤ (32#8).toNat := by decide
/-- Inputs for each of the five clauses, and the transition requested in each. -/
theorem witness_OneTransitionPerEdge :
    arbitrate ⟨true, false, 0#8, false, false, false, 0#8, 0#32, 0#8⟩ = some .reset ∧
    arbitrate ⟨false, true, 0#8, true, true, true, 0#8, 0#32, 0#8⟩ = some (.append 0#8) ∧
    arbitrate ⟨false, false, 0#8, true, true, true, 0#8, 0#32, 0#8⟩ = some (.setReg 0#8 0#32) ∧
    arbitrate ⟨false, false, 0#8, false, true, false, 0#8, 0#32, 0#8⟩ = some .step ∧
    arbitrate ⟨false, false, 0#8, false, false, false, 0#8, 0#32, 0#8⟩ = none := by decide
/-- The ports after the DIV by 0 at offset 4: codes of 10_state.md R16, 60_exceptions.md R160 and
40_step_and_dispatch.md R108. -/
theorem test_outputs_fault : look (fun t =>
    let o := outputs 0#8 t
    (o.status, o.cause, o.stopReason, o.finished, o.faultPc, o.faultOp)) (step divZero) =
    some (2#2, 2#4, 4#3, true, 4#32, 4#8) := by decide
/-- Ends at EOP and at TRUNC are classed neither way (log entry 20). -/
theorem test_eop_end_unclassed : look (fun t => (t.finished, t.goodEnd, t.badEnd)) (step (start [] [])) =
    some (true, false, false) := by decide
theorem test_trunc_end_unclassed : look (fun t => (t.finished, t.goodEnd, t.badEnd)) (step (start [6#8] [])) =
    some (true, false, false) := by decide
theorem witness_OutputsShowState : divZero.Inv ∧ (31#8).toNat < divZero.nreg ∧ divZero.nreg ≤ (32#8).toNat :=
  ⟨witness_inv_divZero, by decide, by decide⟩
/-- At the end of the program, nothing of the instruction there. -/
theorem witness_AppendingCompletesInstruction_eop : (start [] []).Inv ∧ (start [] []).status = .run ∧
    (Instr.jmp 3#8).wf = true ∧ encode (.jmp 3#8) = [] ++ [6#8, 3#8] ∧
    (start [] []).pc.toNat + ([] : List Byte).length = (start [] []).plen ∧
    (start [] []).prog.readBytes (start [] []).pc.toNat ([] : List Byte).length = some [] ∧
    (start [] []).plen + [6#8, 3#8].length ≤ (start [] []).progCap :=
  ⟨witness_inv_start, rfl, rfl, rfl, rfl, rfl, by decide⟩
/-- The three bytes of P7 there, the fourth missing. -/
theorem witness_AppendingCompletesInstruction_trunc : ∃ s : State, s.Inv ∧ s.status = .run ∧
    encode (.load 1#8 1000#16) = [0#8, 1#8, 3#8] ++ [0xE8#8] ∧
    s.pc.toNat + [0#8, 1#8, 3#8].length = s.plen ∧
    s.prog.readBytes s.pc.toNat [0#8, 1#8, 3#8].length = some [0#8, 1#8, 3#8] ∧
    s.plen + [0xE8#8].length ≤ s.progCap :=
  ⟨start [0#8, 1#8, 3#8] [], ⟨⟨by decide, by decide, by decide, by decide⟩, ⟨by decide, by decide⟩,
    ⟨fun _ => by decide, fun _ => by decide⟩, fun h => absurd h (by decide)⟩, by decide, by decide, by decide,
    by decide, by decide⟩

end Sys2Proof.Tests
end

section
/-! SUPPORT. Settles the statements on `SetReg` and on the clock edge (10_state.md R23, R25): first what a
host write (`Append`, `SetReg`) leaves unchanged, and which transition an edge is. -/

namespace Sys2Proof.Machine

/-! ### What a host write leaves unchanged -/

/-- What R25 keeps from a host write: `pc`, `eq`, `rem`, the status and fault registers, and every byte of
the program buffer below `plen`. -/
def HostWriteFrame (s t : State) : Prop :=
  t.pc = s.pc ∧ t.eqFlag = s.eqFlag ∧ t.rem = s.rem ∧ SameReport s t ∧
    ∀ a, a < s.plen → t.prog.read a = s.prog.read a

theorem HostWriteFrame.refl (s : State) : HostWriteFrame s s :=
  ⟨rfl, rfl, rfl, ⟨rfl, rfl, rfl, rfl⟩, fun _ _ => rfl⟩

theorem State.setReg_frame (s : State) (i : Nat) (v : Word) : HostWriteFrame s (s.setReg i v) :=
  ⟨rfl, rfl, rfl, ⟨rfl, rfl, rfl, rfl⟩, fun _ _ => rfl⟩

theorem State.hostSetReg_frame (s : State) (i : Byte) (v : Word) : HostWriteFrame s (s.hostSetReg i v) := by
  rcases Nat.lt_or_ge i.toNat s.nreg with hi | hi
  · rw [State.hostSetReg_ok v hi]
    exact s.setReg_frame i.toNat v
  · rw [State.hostSetReg_bad v hi]
    exact .refl s

/-- The byte goes to `plen`, so no offset below `plen` reads differently. -/
theorem State.appendByte_frame (s : State) (b : Byte) : HostWriteFrame s (s.appendByte b) := by
  rcases Nat.lt_or_ge s.plen s.progCap with hp | hp
  · rw [State.appendByte_room b hp]
    exact ⟨rfl, rfl, rfl, ⟨rfl, rfl, rfl, rfl⟩,
      fun a ha => Memory.read_write_other s.prog s.plen a b (Nat.ne_of_lt ha)⟩
  · rw [State.appendByte_full b hp]
    exact .refl s

/-- A transition that is neither `Reset` nor `Step` is a host write. -/
theorem transition_hostWrite_frame {l : Transition} {s t : State} (hreset : l ≠ .reset) (hstep : l ≠ .step)
    (h : transition l s = .next t) : HostWriteFrame s t := by
  cases l with
  | reset => exact absurd rfl hreset
  | append b =>
    cases h
    exact s.appendByte_frame b
  | setReg i v =>
    cases h
    exact s.hostSetReg_frame i v
  | step => exact absurd rfl hstep

/-! ### `SetReg` as a transition -/

theorem transition_setReg_ok {s : State} {i : Byte} (v : Word) (h : i.toNat < s.nreg) :
    transition (.setReg i v) s = .next (s.setReg i.toNat v) :=
  congrArg _ (State.hostSetReg_ok v h)

theorem transition_setReg_bad {s : State} {i : Byte} (v : Word) (h : s.nreg ≤ i.toNat) :
    transition (.setReg i v) s = .next s :=
  congrArg _ (State.hostSetReg_bad v h)

/-! ### The clock edge -/

/-- An edge is the one transition its inputs request. -/
theorem clockEdge_of_arbitrate {p : Inputs} {l : Transition} (h : arbitrate p = some l) (s : State) :
    clockEdge p s = transition l s := by
  rw [clockEdge, h]

/-- An edge whose inputs request nothing changes nothing. -/
theorem clockEdge_of_idle {p : Inputs} (h : arbitrate p = none) (s : State) : clockEdge p s = .next s := by
  rw [clockEdge, h]

end Sys2Proof.Machine

namespace Sys2Proof.Proofs

open Sys2Proof.Machine

/-- Settles O54: both sides of NREG by the equations of `SetReg`, the rest by the frame of host writes. -/
theorem setRegWritesOneRegister : Obligations.SetRegWritesOneRegister := by
  intro i v s
  refine ⟨fun hi => ?_, transition_setReg_bad v, fun l t hreset hstep h =>
    transition_hostWrite_frame hreset hstep h⟩
  exact ⟨s.setReg i.toNat v, transition_setReg_ok v hi, s.setReg_reg_same i.toNat v hi,
    ⟨s.setReg_nreg i.toNat v, fun j hj => s.setReg_reg_other i.toNat j v hj⟩, rfl⟩

/-- Settles O55: each clause is one branch of the arbitration, and the edge is what it picks. -/
theorem oneTransitionPerEdge : Obligations.OneTransitionPerEdge := by
  intro p s
  refine ⟨fun hrst => ?reset, fun hrst happ => ?append, fun hrst happ hset => ?setReg,
    fun hrst happ hset hgo => ?step, fun hrst happ hset hstep hrun => ?idle⟩
  case reset => exact clockEdge_of_arbitrate (by simp [arbitrate, hrst]) s
  case append => exact clockEdge_of_arbitrate (by simp [arbitrate, hrst, happ]) s
  case setReg => exact clockEdge_of_arbitrate (by simp [arbitrate, hrst, happ, hset]) s
  case step => exact clockEdge_of_arbitrate (by simp [arbitrate, hrst, happ, hset, hgo]) s
  case idle => exact clockEdge_of_idle (by simp [arbitrate, hrst, happ, hset, hstep, hrun]) s

end Sys2Proof.Proofs
end

section
/-! SUPPORT. Settles the statement on `Append` (20_memory.md R48, R49): first `Append` as a transition, with
room and at capacity, and a history of `Append`s. -/

namespace Sys2Proof.Machine

/-! ### `Append` as a transition -/

theorem transition_append_room {s : State} (b : Byte) (h : s.plen < s.progCap) :
    transition (.append b) s = .next { s with prog := s.prog.write s.plen b, plen := s.plen + 1 } :=
  congrArg _ (State.appendByte_room b h)

theorem transition_append_full {s : State} (b : Byte) (h : s.progCap ≤ s.plen) :
    transition (.append b) s = .next s :=
  congrArg _ (State.appendByte_full b h)

theorem outputs_appendReady_full {s : State} (i : Byte) (h : s.progCap ≤ s.plen) :
    (outputs i s).appendReady = false :=
  decide_eq_false (Nat.not_lt.mpr h)

/-! ### Histories of `Append`s -/

/-- A history goes on from the state its first transition answers. -/
theorem runTransitions_cons_of_next {l : Transition} {s t : State} (ls : List Transition)
    (h : transition l s = .next t) : runTransitions (l :: ls) s = runTransitions ls t := by
  rw [runTransitions, h]

theorem State.appendBytes_cons (s : State) (b : Byte) (bs : List Byte) :
    s.appendBytes (b :: bs) = (s.appendByte b).appendBytes bs :=
  rfl

/-- Appending a list of bytes is the history of their `Append`s, from whatever state the first one leaves. -/
theorem runTransitions_map_append (bs : List Byte) (s : State) :
    runTransitions (bs.map .append) s = .next (s.appendBytes bs) := by
  induction bs generalizing s with
  | nil => rfl
  | cons b bs ih =>
    rw [List.map_cons, runTransitions_cons_of_next _ (t := s.appendByte b) rfl, ih, State.appendBytes_cons]

end Sys2Proof.Machine

namespace Sys2Proof.Proofs

open Sys2Proof.Machine

/-- Settles O53: with room by the laws of a buffer write at `plen`, at capacity by the equation of `Append`
there, and a list of bytes by induction on it. -/
theorem appendAddsOneByte : Obligations.AppendAddsOneByte := by
  intro b s
  refine ⟨fun hroom => ?room, fun hfull => ?full, fun bs => runTransitions_map_append bs s⟩
  case room =>
    exact ⟨_, transition_append_room b hroom, Memory.read_write_same s.prog s.plen b,
      fun a ha => Memory.read_write_other s.prog s.plen a b ha, rfl, rfl⟩
  case full =>
    exact ⟨transition_append_full b hfull, fun i => outputs_appendReady_full i hfull⟩

end Sys2Proof.Proofs
end

section
/-! SUPPORT. Settles the statements on what the decoder consumes (30_encoding.md R69, R72): first the decoder's
two answers on a list with an opcode byte, and the three sets of lengths. -/

namespace Sys2Proof

/-! ### The lengths of R72 -/

theorem instrLen_eq_four {b : Byte} (h : b.toNat ∈ [0, 1, 2, 3, 4, 9, 10, 11, 12, 13, 14]) : instrLen b = 4 := by
  revert b
  decide

theorem instrLen_eq_two {b : Byte} (h : b.toNat ∈ [6, 7, 8, 15, 16]) : instrLen b = 2 := by
  revert b
  decide

theorem instrLen_eq_one {b : Byte} (h : b.toNat = 5 ∨ 17 ≤ b.toNat) : instrLen b = 1 := by
  rcases h with h | h
  · obtain rfl : b = Op.hlt.code := BitVec.eq_of_toNat_eq h
    exact instrLen_code .hlt
  · exact instrLen_illegal h

/-! ### The decoder on a list with an opcode byte -/

/-- With all the operand bytes there, one instruction is read and its own bytes are dropped. -/
theorem decode_cons_whole {b0 : Byte} {tail : List Byte} (h : instrLen b0 ≤ (b0 :: tail).length) :
    decode (b0 :: tail) = .ok (decodeInstr b0 (tail.getD 0 0#8) (tail.getD 1 0#8) (tail.getD 2 0#8),
      (b0 :: tail).drop (instrLen b0)) := by
  rw [List.length_cons] at h
  rw [List.drop_cons (instrLen_pos b0), decode, if_neg (by omega)]

theorem decode_cons_short {b0 : Byte} {tail : List Byte} (h : (b0 :: tail).length < instrLen b0) :
    decode (b0 :: tail) = .error (.truncated b0) := by
  rw [List.length_cons] at h
  rw [decode, if_pos (by omega)]

/-- An answer consumed exactly the length of the opcode byte, and that many bytes were there. -/
theorem decode_consumes_instrLen {b0 : Byte} {tail rest : List Byte} {i : Instr}
    (h : decode (b0 :: tail) = .ok (i, rest)) :
    (b0 :: tail).drop (instrLen b0) = rest ∧ instrLen b0 ≤ (b0 :: tail).length := by
  rcases Nat.lt_or_ge (b0 :: tail).length (instrLen b0) with hlen | hlen
  · rw [decode_cons_short hlen] at h
    cases h
  · rw [decode_cons_whole hlen] at h
    cases h
    exact ⟨rfl, hlen⟩

theorem decodeInstr_illegal {b0 : Byte} (h : 17 ≤ b0.toNat) (b1 b2 b3 : Byte) :
    decodeInstr b0 b1 b2 b3 = .illegal b0 := by
  rw [decodeInstr, Op.ofByte_eq_none.mpr h]

/-- A byte from 17 up is an instruction by itself, so whatever follows it is left over (R69). -/
theorem decode_illegal {b0 : Byte} (h : 17 ≤ b0.toNat) (rest : List Byte) :
    decode (b0 :: rest) = .ok (.illegal b0, rest) := by
  have hlen : instrLen b0 = 1 := instrLen_illegal h
  rw [decode_cons_whole (by simp [hlen]), decodeInstr_illegal h, hlen, List.drop_one, List.tail_cons]

end Sys2Proof

namespace Sys2Proof.Proofs

open Sys2Proof.Machine

/-- Settles O4: the three sets of lengths, and the decoder's answer on a whole instruction. -/
theorem lengthByOpcodeByte : Obligations.LengthByOpcodeByte :=
  fun _ => ⟨instrLen_eq_four, instrLen_eq_two, instrLen_eq_one, fun _ _ _ => decode_consumes_instrLen⟩

/-- Settles O5: a byte outside the defined set decodes alone and executes to its fault, and no length
exceeds four bytes. -/
theorem undefinedBytesDecodeIllegal : Obligations.UndefinedBytesDecodeIllegal := by
  refine ⟨fun b0 rest h => ⟨decode_illegal h rest, fun s => ?fault⟩, fun b0 b1 b2 b3 => ?total⟩
  case fault =>
    exact ⟨s.raiseFault .illegalOpcode b0, rfl, State.raiseFault_status .., State.raiseFault_cause ..⟩
  case total => exact ⟨_, _, decode_cons_whole (instrLen_le b0)⟩

end Sys2Proof.Proofs
end

section
/-! SUPPORT. Settles the statement on the ignored bytes (30_encoding.md R70): the meanings of the instructions
that have one. -/

namespace Sys2Proof.Machine

/-- Writing the pad byte as a canonical line does keeps the meaning of every instruction. -/
theorem exec_zeroPad (i : Instr) (s : State) : exec (zeroPad i) s = exec i s := by
  cases i <;> rfl

/-- Instructions that differ in the pad byte at most have one meaning. -/
theorem exec_eq_of_zeroPad_eq {i j : Instr} (h : zeroPad i = zeroPad j) (s : State) : exec i s = exec j s := by
  rw [← exec_zeroPad i, h, exec_zeroPad]

theorem exec_aloc (ign : Byte) (s : State) : exec (.aloc ign) s = .next (s.retire 2) :=
  rfl

end Sys2Proof.Machine

namespace Sys2Proof.Proofs

open Sys2Proof.Machine

/-- Settles O37: two comparisons that differ in the pad byte are one with it zeroed, and ALOC only retires. -/
theorem ignoredBytesHaveNoEffect : Obligations.IgnoredBytesHaveNoEffect := by
  intro a b p q s
  refine ⟨?eq, ?neq, ?gt, ?lt, ?gtq, ?ltq, ?aloc⟩
  case aloc => rw [exec_aloc, exec_aloc]
  all_goals exact exec_eq_of_zeroPad_eq rfl s

end Sys2Proof.Proofs
end

section
/-! SUPPORT. Settles the statement on the encoder (30_encoding.md R77): first what one operand slot emits, then
the encoder's answers. -/

namespace Sys2Proof.Machine

/-! ### One operand slot -/

/-- The two bytes of a number, high first, by arithmetic on its value. -/
theorem number_bytes (n : Word) :
    n.extractLsb' 8 8 = BitVec.ofNat 8 (n.toNat / 256) ∧ n.extractLsb' 0 8 = BitVec.ofNat 8 n.toNat := by
  constructor <;> apply BitVec.eq_of_toNat_eq <;> simp [Nat.shiftRight_eq_div_pow]

/-- The encoder's bytes for a slot are those of R77, and a token without any is a contract violation. -/
theorem operandBytes_eq_emitted (slot : Option Token) :
    operandBytes slot = (slot.elim (some []) emitted).elim (.error .badOperand) .ok := by
  cases slot with
  | none => rfl
  | some tok =>
    cases tok with
    | number n =>
      obtain ⟨hhi, hlo⟩ := number_bytes n
      simp [operandBytes, emitted, hhi, hlo]
    | operation | register | directive | labelDeclaration | labelUsage => rfl

theorem operandBytes_ok_iff {slot : Option Token} {bs : List Byte} :
    operandBytes slot = .ok bs ↔ slot.elim (some []) emitted = some bs := by
  rw [operandBytes_eq_emitted]
  cases slot.elim (some []) emitted <;> simp

/-- A slot emits a number's two bytes at most. -/
theorem emitted_length_le {slot : Option Token} {bs : List Byte} (h : slot.elim (some []) emitted = some bs) :
    bs.length ≤ 2 := by
  cases slot with
  | none =>
    cases h
    decide
  | some tok =>
    cases tok with
    | register | number =>
      cases h
      simp
    | operation | directive | labelDeclaration | labelUsage => cases h

/-! ### The encoder -/

theorem toBytes_noOpcode (illegalByte : Byte) {x : AsmInstr} (h : x.opcode = none) :
    toBytes illegalByte x = .error .noOpcode := by
  rw [toBytes, h]

theorem toBytes_ok (illegalByte : Byte) {x : AsmInstr} {op : Opcode} {b1 b2 b3 : List Byte}
    (h : x.opcode = some op) (h1 : operandBytes x.op1 = .ok b1) (h2 : operandBytes x.op2 = .ok b2)
    (h3 : operandBytes x.op3 = .ok b3) :
    toBytes illegalByte x = .ok (opcodeToByte illegalByte op :: (b1 ++ b2 ++ b3)) := by
  simp only [toBytes, h, h1, h2, h3, List.append_assoc]

/-- With an opcode there, either each slot emits its bytes or the operands are the violation. -/
theorem toBytes_cases (illegalByte : Byte) {x : AsmInstr} {op : Opcode} (h : x.opcode = some op) :
    (∃ b1 b2 b3, operandBytes x.op1 = .ok b1 ∧ operandBytes x.op2 = .ok b2 ∧ operandBytes x.op3 = .ok b3) ∨
    toBytes illegalByte x = .error .badOperand := by
  simp only [toBytes, h]
  split
  · exact .inl ⟨_, _, _, ‹_›, ‹_›, ‹_›⟩
  · exact .inr rfl

/-- One slot that emits nothing valid spoils the whole instruction. -/
theorem toBytes_badOperand (illegalByte : Byte) {x : AsmInstr} {op : Opcode} {tok : Token}
    (h : x.opcode = some op) (hslot : x.op1 = some tok ∨ x.op2 = some tok ∨ x.op3 = some tok)
    (hbad : emitted tok = none) : toBytes illegalByte x = .error .badOperand := by
  rcases toBytes_cases illegalByte h with ⟨b1, b2, b3, h1, h2, h3⟩ | herr
  · have hno : ∀ bs, operandBytes (some tok) ≠ .ok bs := by simp [operandBytes_ok_iff, hbad]
    rcases hslot with hs | hs | hs
    · exact absurd (hs ▸ h1) (hno b1)
    · exact absurd (hs ▸ h2) (hno b2)
    · exact absurd (hs ▸ h3) (hno b3)
  · exact herr

end Sys2Proof.Machine

namespace Sys2Proof.Proofs

open Sys2Proof.Machine

/-- Settles O9: the encoder's two contract violations, and the bytes of its slots, two at most for each. -/
theorem encoderEmitsOperands : Obligations.EncoderEmitsOperands := by
  intro illegalByte x
  refine ⟨toBytes_noOpcode illegalByte, fun op hop => ⟨?bad, fun b1 b2 b3 h1 h2 h3 => ⟨?bytes, ?length⟩⟩⟩
  case bad =>
    rintro ⟨tok, hslot, hbad⟩
    exact toBytes_badOperand illegalByte hop hslot hbad
  case bytes =>
    exact toBytes_ok illegalByte hop (operandBytes_ok_iff.mpr h1) (operandBytes_ok_iff.mpr h2)
      (operandBytes_ok_iff.mpr h3)
  case length =>
    have := emitted_length_le h1
    have := emitted_length_le h2
    have := emitted_length_le h3
    simp only [List.length_append]
    omega

end Sys2Proof.Proofs
end

section
/-! SUPPORT. Settles the statement on parsed lines (30_encoding.md R75, R86): what the parser can put into an
operand slot, and the two forms of line. -/

namespace Sys2Proof.Machine

/-! ### Operands -/

/-- A token is a register, or a number that was checked to be in range. -/
theorem parseOperand_slotOk {cs rest : List Char} {tok : Token} (h : parseOperand cs = some (tok, rest)) :
    slotOk (some tok) := by
  cases cs with
  | nil => cases h
  | cons c cs =>
    simp only [parseOperand] at h
    split_ifs at h with _ _ _ _ hn
    · cases h
      trivial
    · cases h
      exact (BitVec.toNat_ofNat ..).trans_le ((Nat.mod_le ..).trans hn)

theorem parseOperands_slotOk (n : Nat) (cs : List Char) : ∀ tok ∈ (parseOperands n cs).1, slotOk (some tok) := by
  induction n generalizing cs with
  | zero => simp [parseOperands]
  | succ n ih =>
    rw [parseOperands]
    split
    · simp
    · rename_i tok rest h
      exact List.forall_mem_cons.mpr ⟨parseOperand_slotOk h, ih (skipWs rest)⟩

theorem parseBody_slotOk {cs name : List Char} {ts : List Token} (h : parseBody cs = some (name, ts)) :
    ∀ tok ∈ ts, slotOk (some tok) := by
  have hops := parseOperands_slotOk 3 (skipWs (cs.dropWhile isLetter))
  simp only [parseBody] at h
  split_ifs at h
  split at h
  · rename_i heq
    cases h
    rwa [heq] at hops
  · cases h

/-! ### Lines -/

/-- A slot past the last operand is empty, and every other holds one of the operands. -/
theorem slotOk_getElem? {ts : List Token} (h : ∀ tok ∈ ts, slotOk (some tok)) (k : Nat) : slotOk ts[k]? := by
  cases hk : ts[k]? with
  | none => trivial
  | some tok => exact h tok (List.mem_of_getElem? hk)

/-- A line is a directive's or an operation's, and its slots are filled from the operands it was written
with. -/
theorem parseLine_cases {line : List Char} {x : AsmInstr} (h : parseLine line = some x) :
    ∃ cs name ts, parseBody cs = some (name, ts) ∧
      (x = .ofParts none (some name) ts ∨ x = .ofParts (some (mnemonicToOpcode name)) none ts) := by
  unfold parseLine at h
  split at h
  · obtain ⟨⟨name, ts⟩, hb, rfl⟩ := Option.map_eq_some_iff.mp h
    exact ⟨_, name, ts, hb, .inl rfl⟩
  · obtain ⟨⟨name, ts⟩, hb, rfl⟩ := Option.map_eq_some_iff.mp h
    exact ⟨_, name, ts, hb, .inr rfl⟩

theorem parseLine_slotsOk {line : List Char} {x : AsmInstr} (h : parseLine line = some x) :
    slotOk x.op1 ∧ slotOk x.op2 ∧ slotOk x.op3 := by
  obtain ⟨cs, name, ts, hb, rfl | rfl⟩ := parseLine_cases h
  all_goals
    have hts := parseBody_slotOk hb
    exact ⟨slotOk_getElem? hts 0, slotOk_getElem? hts 1, slotOk_getElem? hts 2⟩

theorem parseLine_opcode_xor_directive {line : List Char} {x : AsmInstr} (h : parseLine line = some x) :
    x.opcode.isSome = !x.directive.isSome := by
  obtain ⟨cs, name, ts, _, rfl | rfl⟩ := parseLine_cases h
  · rfl
  · rfl

end Sys2Proof.Machine

namespace Sys2Proof.Proofs

open Sys2Proof.Machine

/-- Settles O10: the two forms of a parsed line, the range checks on its operands, and the rule's two
examples by running the parser. -/
theorem parsedInstructionShape : Obligations.ParsedInstructionShape :=
  ⟨fun _ _ h => ⟨parseLine_opcode_xor_directive h, parseLine_slotsOk h⟩, rfl, rfl⟩

end Sys2Proof.Proofs
end

section
/-! SUPPORT. Settles the statements on the checks before an instruction executes (40_step_and_dispatch.md R100,
R101, R106): first the fault a bad register index takes, then the two idle steps and which outcome an executed
instruction reports. -/

namespace Sys2Proof.Machine

/-! ### A register index beyond the register file -/

/-- Raising a fault makes the writes of 60_exceptions.md R165 and no other. -/
theorem State.raiseFault_faultTaken (s : State) (c : Cause) (b0 : Byte) : FaultTaken c b0 s (s.raiseFault c b0) := by
  refine ⟨rfl, rfl, rfl, rfl, fun hc hle => ?moved, fun hc => ?kept, rfl, ⟨rfl, fun _ => rfl⟩, rfl, rfl,
    ⟨fun _ => rfl, rfl, rfl, rfl⟩⟩
  case moved =>
    rw [State.raiseFault_pc, if_pos hc]
    exact pc_add_exact hle
  case kept => rw [State.raiseFault_pc, if_neg hc]

/-- The meaning of an instruction with a register index field begins with the check of those fields, so a bad
one decides the step; HLT, ALOC and ILLEGAL have no such field. -/
theorem exec_badIndex {i : Instr} {s : State} (h : ∃ f ∈ regFields i, s.nreg ≤ f.toNat) :
    exec i s = .next (s.raiseFault .regIndex (firstByte i)) := by
  cases i with
  | load | add | sub | mul | div | jmp | jmpf | jmpb | eq | neq | gt | lt | gtq | ltq | jeq =>
    exact withRegs_bad h
  | hlt | aloc | illegal =>
    obtain ⟨f, hf, _⟩ := h
    cases hf

/-! ### The two idle steps -/

theorem State.report_sameArch (s : State) (r : StopReason) : SameArch s (s.report r) :=
  rfl

theorem step_stopped {s : State} (h : s.status ≠ .run) : step s = .next (s.report .terminal) :=
  step_idle (if_pos h)

theorem step_atEnd {s : State} (hrun : s.status = .run) (hend : s.plen ≤ s.pc.toNat) :
    step s = .next (s.report .eop) := by
  apply step_idle
  rw [fetch, if_neg (not_not_intro hrun), if_pos hend]

/-! ### When a step reports EOP -/

/-- An executed instruction retires, halts or faults: it reports none of the idle outcomes (R108). -/
theorem Effect.stopReason_cases {i : Instr} {s t : State} (h : Effect i s t) :
    t.stopReason = .retired ∨ t.stopReason = .hlt ∨ t.stopReason = .fault := by
  cases h with
  | write | divide | compare | jump | pass => exact .inl rfl
  | halt => exact .inr (.inl rfl)
  | fault => exact .inr (.inr rfl)

/-- Only a step at or beyond `plen` reports EOP. -/
theorem plen_le_pc_of_step_eop {s t : State} (hstep : step s = .next t) (heop : t.stopReason = .eop) :
    s.plen ≤ s.pc.toNat := by
  rcases fetch_cases s with ⟨_, hf⟩ | ⟨_, hend, _⟩ | ⟨_, _, _, _, _, hf⟩ | ⟨_, _, _, _, _, _, _, hf⟩ | ⟨_, _, hf, _⟩
  · rw [step_idle hf] at hstep
    cases hstep
    cases heop
  · exact hend
  · rw [step_idle hf] at hstep
    cases hstep
    cases heop
  · obtain ⟨u, hu, heff⟩ := exec_effect _ s
    rw [step_instr hf, hu] at hstep
    cases hstep
    have := heff.stopReason_cases
    simp [heop] at this
  · rw [step_hole hf] at hstep
    cases hstep

@[simp] theorem State.appendByte_pc (s : State) (b : Byte) : (s.appendByte b).pc = s.pc := by
  obtain ⟨hpc, _⟩ := s.appendByte_frame b
  exact hpc

@[simp] theorem State.appendBytes_pc (s : State) (bs : List Byte) : (s.appendBytes bs).pc = s.pc := by
  induction bs generalizing s with
  | nil => rfl
  | cons b bs ih => rw [State.appendBytes_cons, ih, State.appendByte_pc]

end Sys2Proof.Machine

namespace Sys2Proof.Proofs

open Sys2Proof.Machine

/-- Settles O36: the bad field decides the meaning of the instruction, and the fault it takes makes the writes
of R165. -/
theorem badRegisterIndexFaults : Obligations.BadRegisterIndexFaults :=
  fun _ s hbad => ⟨_, exec_badIndex hbad, s.raiseFault_faultTaken _ _⟩

/-- Settles O15: both stopped statuses differ from RUN, the first check of the step. -/
theorem stoppedMachineStays : Obligations.StoppedMachineStays := by
  intro s hstopped
  have hrun : s.status ≠ .run := by rcases hstopped with h | h <;> simp [h]
  exact ⟨step_stopped hrun, s.report_sameArch _, rfl⟩

/-- Settles O16: the second check of the step; `Append` leaves `pc`, so with `plen` above it EOP cannot be
reported. -/
theorem endOfProgramReported : Obligations.EndOfProgramReported := by
  intro s hrun hend
  refine ⟨step_atEnd hrun hend, s.report_sameArch _, rfl, hrun, fun bs t hroom hstep heop => ?_⟩
  have hle := plen_le_pc_of_step_eop hstep heop
  rw [State.appendBytes_pc] at hle
  exact absurd hroom (Nat.not_lt.mpr hle)

end Sys2Proof.Proofs
end

section
/-! SUPPORT. Settles the statement on LOAD (41_load.md R120): first the rules every instruction shares (cut short
in the buffer, a register written, retiring), then the immediate and the meaning of LOAD. -/

namespace Sys2Proof

/-- A half-word is its two bytes read big-endian, so no bit of LOAD's immediate is lost in its encoding. -/
theorem be16_extractLsb' (imm : BitVec 16) : be16 (imm.extractLsb' 8 8) (imm.extractLsb' 0 8) = imm :=
  (BitVec.extractLsb'_append_extractLsb'_eq_extractLsb' (Nat.zero_add 8).symm).trans BitVec.extractLsb'_eq_self

end Sys2Proof

namespace Sys2Proof.Machine

/-! ### The rules every instruction shares -/

/-- The completeness check of R104 comes before any instruction executes. -/
theorem cutShort_instrLen (b0 : Byte) : CutShort b0 (instrLen b0) := by
  intro s hrun hpc hread hshort
  apply step_idle
  simp only [fetch, hread]
  rw [if_neg (not_not_intro hrun), if_neg (Nat.not_le.mpr hpc), if_pos hshort]

theorem State.setReg_sameRegsBut (s : State) (d : Nat) (v : Word) : SameRegsBut d s (s.setReg d v) :=
  ⟨s.setReg_nreg d v, fun j hj => s.setReg_reg_other d j v hj⟩

/-- An instruction that wrote its result without moving `pc`, the report or the program retires as from `s`. -/
theorem State.retire_retired {s u : State} (len : Nat) (hpc : u.pc = s.pc) (hreport : SameReport s u)
    (hprog : SameProgram s u) : Retired len s (u.retire len) := by
  refine ⟨fun hle => ?_, rfl, hreport, hprog⟩
  rw [State.retire_pc, hpc]
  exact pc_add_exact hle

theorem State.setReg_retire_retired (s : State) (d : Nat) (v : Word) (len : Nat) :
    Retired len s ((s.setReg d v).retire len) :=
  State.retire_retired len rfl ⟨rfl, rfl, rfl, rfl⟩ ⟨fun _ => rfl, rfl, rfl, rfl⟩

/-! ### LOAD -/

theorem zext32_toNat (imm : BitVec 16) : (zext32 imm).toNat = imm.toNat :=
  BitVec.toNat_setWidth_of_le (by decide)

/-- Sixteen bits do not reach the sign bit: 0xFFFF loads as 65535, not -1. -/
theorem zext32_toInt_nonneg (imm : BitVec 16) : 0 ≤ (zext32 imm).toInt := by
  have hval := zext32_toNat imm
  have hlt := imm.isLt
  rw [BitVec.toInt_eq_toNat_of_lt (by omega)]
  exact Int.natCast_nonneg _

theorem exec_load_ok {d : Byte} {s : State} (imm : BitVec 16) (h : d.toNat < s.nreg) :
    exec (.load d imm) s = .next ((s.setReg d.toNat (zext32 imm)).retire 4) :=
  withRegs_ok (by simpa using h)

end Sys2Proof.Machine

namespace Sys2Proof.Proofs

open Sys2Proof.Machine

/-- Settles O21: the bytes from the big-endian pair, the value from the zero extension, the frame from the rules
of a register write and of retiring, and the bad index from the rule on all instructions. -/
theorem loadWritesImmediate : Obligations.LoadWritesImmediate := by
  refine ⟨cutShort_instrLen 0x00#8, fun d imm => ⟨?bytes, fun s => ⟨fun hd => ?completes, ?badIndex⟩⟩⟩
  case bytes =>
    refine ⟨imm.extractLsb' 8 8, imm.extractLsb' 0 8, rfl, ?_⟩
    rw [← be16_toNat, be16_extractLsb']
  case completes =>
    have hreg := s.setReg_reg_same d.toNat (zext32 imm) hd
    refine ⟨_, exec_load_ok imm hd, ?value, ?sign, s.setReg_sameRegsBut _ _, rfl, rfl,
      s.setReg_retire_retired _ _ 4⟩
    case value => rw [State.retire_reg, hreg, zext32_toNat]
    case sign =>
      rw [State.retire_reg, hreg]
      exact zext32_toInt_nonneg imm
  case badIndex => exact badRegisterIndexFaults (.load d imm) s

end Sys2Proof.Proofs
end

section
/-! SUPPORT. Settles the statements on ADD, SUB, MUL and DIV (42_arith.md R125 to R129): first the value of a
wrapped result, then one rule for the three wrapping instructions, then the branches of DIV. -/

namespace Sys2Proof.Machine

/-! ### The value of a wrapped result -/

theorem wrap32_toNat (n : Int) : ((wrap32 n).toNat : Int) = n % 4294967296 := by
  rw [wrap32, BitVec.toNat_ofInt]
  exact Int.toNat_of_nonneg (Int.emod_nonneg n (by decide))

/-- `INT_MIN / -1` is the one quotient that is not a 32-bit signed value, so any other is written exactly. -/
theorem wrap32_quotient_toInt {x y : Word} (h : ¬(x.toInt = -2147483648 ∧ y.toInt = -1)) :
    (wrap32 (quotient (sint x) (sint y))).toInt = Int.tdiv x.toInt y.toInt := by
  have hfits : x ≠ BitVec.intMin 32 ∨ y ≠ -1#32 := by
    rw [← not_and_or]
    rintro ⟨rfl, rfl⟩
    exact h (by decide)
  rw [wrap32, quotient, sint, sint, ← BitVec.toInt_sdiv_of_ne_or_ne x y hfits, BitVec.ofInt_toInt]

/-! ### ADD, SUB and MUL -/

/-- An instruction of four bytes that means `arith` follows the rule of R125. -/
theorem arithRule_of_exec_eq {mk : Byte → Byte → Byte → Instr} {op : Op} {f : Int → Int → Int}
    (hlen : op.format.length = 4) (henc : ∀ a b d, encode (mk a b d) = [op.code, a, b, d])
    (hexec : ∀ a b d s, exec (mk a b d) s = arith op f a b d s) : ArithRule mk op.code f := by
  have hcut : CutShort op.code 4 := by
    rw [← hlen, ← instrLen_code]
    exact cutShort_instrLen op.code
  refine ⟨hcut, fun a b d => ⟨henc a b d, fun s => ⟨fun ha hb hd => ?completes, fun hbad => ?badIndex⟩⟩⟩
  case completes =>
    refine ⟨_, (hexec a b d s).trans (arith_ok ha hb hd), ?value, s.setReg_sameRegsBut _ _, rfl, rfl,
      s.setReg_retire_retired _ _ 4⟩
    rw [State.retire_reg, s.setReg_reg_same _ _ hd]
    exact wrap32_toNat _
  case badIndex => exact ⟨_, (hexec a b d s).trans (withRegs_bad hbad), s.raiseFault_faultTaken _ _⟩

/-! ### DIV -/

theorem exec_div_ok {a b d : Byte} {s : State} (ha : a.toNat < s.nreg) (hb : b.toNat < s.nreg)
    (hd : d.toNat < s.nreg) : exec (.div a b d) s = divide a b d s :=
  withRegs_ok (by simp [ha, hb, hd])

theorem divide_byZero {a b : Byte} (d : Byte) {s : State} (hy : (s.reg b.toNat).toInt = 0) :
    divide a b d s = .next (s.raiseFault .divByZero Op.div.code) :=
  if_pos hy

theorem divide_overflow {a b : Byte} (d : Byte) {s : State} (hx : (s.reg a.toNat).toInt = -2147483648)
    (hy : (s.reg b.toNat).toInt = -1) :
    divide a b d s = .next (s.raiseFault .divOverflow Op.div.code) := by
  have hnonzero : (s.reg b.toNat).toInt ≠ 0 := by omega
  exact (if_neg hnonzero).trans (if_pos ⟨hx, hy⟩)

theorem divide_ok {a b : Byte} (d : Byte) {s : State} (hnonzero : (s.reg b.toNat).toInt ≠ 0)
    (hfits : ¬((s.reg a.toNat).toInt = -2147483648 ∧ (s.reg b.toNat).toInt = -1)) :
    divide a b d s = .next (((s.setReg d.toNat
      (wrap32 (quotient (sint (s.reg a.toNat)) (sint (s.reg b.toNat))))).setRem
      (wrap32 (remainder (sint (s.reg a.toNat)) (sint (s.reg b.toNat))))).retire 4) :=
  (if_neg hnonzero).trans (if_neg hfits)

end Sys2Proof.Machine

namespace Sys2Proof.Proofs

open Sys2Proof.Machine

/-- Settles O22: ADD is the wrapping rule at the integer sum. -/
theorem addWrapsSum : Obligations.AddWrapsSum :=
  arithRule_of_exec_eq (op := .add) rfl (fun _ _ _ => rfl) fun _ _ _ _ => rfl

/-- Settles O23: SUB is the wrapping rule at the integer difference, first register minus second. -/
theorem subWrapsDifference : Obligations.SubWrapsDifference :=
  arithRule_of_exec_eq (op := .sub) rfl (fun _ _ _ => rfl) fun _ _ _ _ => rfl

/-- Settles O24: MUL is the wrapping rule at the integer product. -/
theorem mulKeepsLowProduct : Obligations.MulKeepsLowProduct :=
  arithRule_of_exec_eq (op := .mul) rfl (fun _ _ _ => rfl) fun _ _ _ _ => rfl

/-- Settles O25: one branch of `divide` for each case of R129; outside the overflow case the quotient needs no
wrapping, and the remainder's pattern is the wrapped integer. -/
theorem divWritesQuotientAndRemainder : Obligations.DivWritesQuotientAndRemainder := by
  refine ⟨cutShort_instrLen 0x04#8, fun a b d => ⟨rfl, fun s => ⟨fun ha hb hd => ?goodIndices, ?badIndex⟩⟩⟩
  case goodIndices =>
    rw [exec_div_ok ha hb hd]
    refine ⟨fun hy => ⟨_, divide_byZero d hy, s.raiseFault_faultTaken _ _⟩,
      fun hx hy => ⟨_, divide_overflow d hx hy, s.raiseFault_faultTaken _ _⟩,
      fun hnonzero hfits => ⟨_, divide_ok d hnonzero hfits, ?quotient, wrap32_toNat _,
        s.setReg_sameRegsBut _ _, rfl, ?retired⟩⟩
    case quotient =>
      rw [State.retire_reg, State.setRem_reg, s.setReg_reg_same _ _ hd]
      exact wrap32_quotient_toInt hfits
    case retired => exact State.retire_retired 4 rfl ⟨rfl, rfl, rfl, rfl⟩ ⟨fun _ => rfl, rfl, rfl, rfl⟩
  case badIndex => exact badRegisterIndexFaults (.div a b d) s

end Sys2Proof.Proofs
end

section
/-! SUPPORT. Settles the statements on HLT, JMP and JEQ (43_control.md R135, R136, R139): first what a jump
leaves unchanged, then the meanings of the three instructions with a good register index. -/

namespace Sys2Proof.Machine

/-! ### What a jump leaves unchanged -/

theorem State.jumpTo_jumped (s : State) (p : Word) : Jumped s (s.jumpTo p) :=
  ⟨rfl, ⟨rfl, fun _ => rfl⟩, rfl, rfl, ⟨rfl, rfl, rfl, rfl⟩, ⟨fun _ => rfl, rfl, rfl, rfl⟩⟩

/-- Retiring writes what a jump writes, `pc` and the output latch. -/
theorem State.retire_jumped (s : State) (len : Nat) : Jumped s (s.retire len) :=
  ⟨rfl, ⟨rfl, fun _ => rfl⟩, rfl, rfl, ⟨rfl, rfl, rfl, rfl⟩, ⟨fun _ => rfl, rfl, rfl, rfl⟩⟩

theorem State.retire_pcMoved (s : State) (len : Nat) : PcMoved len s (s.retire len) :=
  pc_add_exact

/-- An instruction that means a jump to `target` follows the rule of R141: in range `pc` is the target, out of
range the fault is PC_RANGE. -/
theorem jumpsTo_of_exec_eq {i : Instr} {op : Op} {target : Int} {s : State}
    (hexec : exec i s = takeJump op target s) : JumpsTo i op.code target s := by
  refine ⟨fun h0 h1 => ?taken, fun hout => ?outOfRange⟩
  case taken =>
    exact ⟨_, hexec.trans (takeJump_ok h0 h1), pcTarget_value (pcTarget_some h0 h1), s.jumpTo_jumped _⟩
  case outOfRange => exact ⟨_, hexec.trans (takeJump_bad hout), s.raiseFault_faultTaken _ _⟩

/-! ### HLT, JMP and JEQ -/

theorem exec_hlt (s : State) : exec .hlt s = .next s.halt :=
  rfl

theorem State.halt_pcMoved (s : State) : PcMoved 1 s s.halt :=
  pc_add_exact

/-- The step after a HLT finds the machine stopped. -/
theorem step_halt (s : State) : step s.halt = .next (s.halt.report .terminal) :=
  step_stopped (by simp)

theorem exec_jmp_ok {r : Byte} {s : State} (h : r.toNat < s.nreg) :
    exec (.jmp r) s = takeJump .jmp (s.reg r.toNat).toInt s :=
  withRegs_ok (by simpa using h)

theorem exec_jeq_taken {r : Byte} {s : State} (h : r.toNat < s.nreg) (heq : s.eqFlag = true) :
    exec (.jeq r) s = takeJump .jeq (s.reg r.toNat).toInt s :=
  (withRegs_ok (by simpa using h)).trans (if_pos heq)

theorem exec_jeq_notTaken {r : Byte} {s : State} (h : r.toNat < s.nreg) (heq : s.eqFlag = false) :
    exec (.jeq r) s = .next (s.retire 2) :=
  (withRegs_ok (by simpa using h)).trans (if_neg (by simp [heq]))

end Sys2Proof.Machine

namespace Sys2Proof.Proofs

open Sys2Proof.Machine

/-- Settles O28: with a good index JMP is the shared jump to the register's signed value, whose target
check catches a negative one; a bad index by the rule on all instructions. -/
theorem jmpGoesToRegister : Obligations.JmpGoesToRegister :=
  ⟨cutShort_instrLen 0x06#8, fun r => ⟨rfl, fun s =>
    ⟨fun hr => jumpsTo_of_exec_eq (exec_jmp_ok hr), badRegisterIndexFaults (.jmp r) s⟩⟩⟩

/-- Settles O31: the two branches on the flag, behind the index check that both share. -/
theorem jeqFollowsFlag : Obligations.JeqFollowsFlag := by
  refine ⟨cutShort_instrLen 0x0F#8, fun r => ⟨rfl, fun s =>
    ⟨fun hr heq => ?taken, fun hr heq => ?notTaken, ?badIndex⟩⟩⟩
  case taken => exact jumpsTo_of_exec_eq (exec_jeq_taken hr heq)
  case notTaken => exact ⟨_, exec_jeq_notTaken hr heq, s.retire_pcMoved 2, s.retire_jumped 2⟩
  case badIndex => exact badRegisterIndexFaults (.jeq r) s

/-- Settles O27: the writes of HLT, its frame, and the status check of the step after it. -/
theorem haltStopsMachine : Obligations.HaltStopsMachine := by
  refine ⟨rfl, fun s => ⟨_, exec_hlt s, s.halt_pcMoved, s.halt_status, s.halt_stopReason, rfl, ?frame⟩⟩
  case frame =>
    exact ⟨rfl, rfl, rfl, ⟨rfl, fun _ => rfl⟩, rfl, rfl, ⟨fun _ => rfl, rfl, rfl, rfl⟩, step_halt s⟩

end Sys2Proof.Proofs
end

section
/-! SUPPORT. Settles the statements on the six comparisons (44_compare.md R145 to R151): first the relation each
of them tests, then one rule for an instruction that means `compare`. -/

namespace Sys2Proof.Machine

/-! ### The relations

EQ and NEQ compare patterns; the other four compare two's-complement values (decision D12). -/

theorem relEq_iff (v w : Word) : relEq v w = true ↔ v = w :=
  decide_eq_true_iff

theorem relNeq_iff (v w : Word) : relNeq v w = true ↔ v ≠ w :=
  decide_eq_true_iff

theorem relGt_iff (v w : Word) : relGt v w = true ↔ v.toInt > w.toInt :=
  decide_eq_true_iff

theorem relLt_iff (v w : Word) : relLt v w = true ↔ v.toInt < w.toInt :=
  decide_eq_true_iff

theorem relGtq_iff (v w : Word) : relGtq v w = true ↔ v.toInt ≥ w.toInt :=
  decide_eq_true_iff

theorem relLtq_iff (v w : Word) : relLtq v w = true ↔ v.toInt ≤ w.toInt :=
  decide_eq_true_iff

/-! ### The rule of a comparison -/

theorem cutShort_code (op : Op) : CutShort op.code op.format.length := by
  rw [← instrLen_code]
  exact cutShort_instrLen op.code

theorem State.setEq_retire_retired (s : State) (f : Bool) (len : Nat) : Retired len s ((s.setEq f).retire len) :=
  State.retire_retired len rfl ⟨rfl, rfl, rfl, rfl⟩ ⟨fun _ => rfl, rfl, rfl, rfl⟩

/-- An instruction of four bytes that means `compare` follows the rule of R145: the flag is the Boolean test, so
it is written 1 when the relation holds and 0 when not, and the pad byte is no argument of the meaning. -/
theorem compareRule_of_exec_eq {mk : Byte → Byte → Byte → Instr} {op : Op} {test : Word → Word → Bool}
    {rel : Word → Word → Prop} (hlen : op.format.length = 4)
    (henc : ∀ a b pad, encode (mk a b pad) = [op.code, a, b, pad])
    (hexec : ∀ a b pad s, exec (mk a b pad) s = compare op test a b s)
    (htest : ∀ v w, test v w = true ↔ rel v w) : CompareRule mk op.code rel := by
  refine ⟨hlen ▸ cutShort_code op, fun a b pad => ⟨henc a b pad, fun s => ⟨fun ha hb => ?completes,
    fun hbad => ?badIndex⟩⟩⟩
  case completes =>
    exact ⟨_, (hexec a b pad s).trans (compare_ok ha hb), htest _ _, ⟨rfl, fun _ => rfl⟩, rfl,
      s.setEq_retire_retired _ 4⟩
  case badIndex => exact ⟨_, (hexec a b pad s).trans (withRegs_bad hbad), s.raiseFault_faultTaken _ _⟩

end Sys2Proof.Machine

namespace Sys2Proof.Proofs

open Sys2Proof.Machine

/-- Settles O32: EQ and NEQ are the rule of a comparison at the equality and inequality of patterns. -/
theorem equalityComparisonsWriteFlag : Obligations.EqualityComparisonsWriteFlag := by
  refine ⟨?eq, ?neq⟩
  case eq => exact compareRule_of_exec_eq (op := .eq) rfl (fun _ _ _ => rfl) (fun _ _ _ _ => rfl) relEq_iff
  case neq => exact compareRule_of_exec_eq (op := .neq) rfl (fun _ _ _ => rfl) (fun _ _ _ _ => rfl) relNeq_iff

/-- Settles O33: GT, LT, GTQ and LTQ are the rule of a comparison at the four signed orders. -/
theorem orderComparisonsWriteFlag : Obligations.OrderComparisonsWriteFlag := by
  refine ⟨?gt, ?lt, ?gtq, ?ltq⟩
  case gt => exact compareRule_of_exec_eq (op := .gt) rfl (fun _ _ _ => rfl) (fun _ _ _ _ => rfl) relGt_iff
  case lt => exact compareRule_of_exec_eq (op := .lt) rfl (fun _ _ _ => rfl) (fun _ _ _ _ => rfl) relLt_iff
  case gtq => exact compareRule_of_exec_eq (op := .gtq) rfl (fun _ _ _ => rfl) (fun _ _ _ _ => rfl) relGtq_iff
  case ltq => exact compareRule_of_exec_eq (op := .ltq) rfl (fun _ _ _ => rfl) (fun _ _ _ _ => rfl) relLtq_iff

end Sys2Proof.Proofs
end

section
/-! SUPPORT. Settles the statement on ALOC (45_reserved_and_illegal.md R155): its meaning is the retire of its
two bytes, with no register check in front of it. -/

namespace Sys2Proof.Proofs

open Sys2Proof.Machine

/-- Settles O34: whatever the operand byte, ALOC retires two bytes, and a retire writes only `pc` and the output
latch. -/
theorem alocOnlyAdvances : Obligations.AlocOnlyAdvances := by
  refine ⟨cutShort_code .aloc, fun ign => ⟨rfl, fun s => ⟨s.retire 2, exec_aloc ign s, ?frame⟩⟩⟩
  case frame =>
    obtain ⟨hlatch, hregs, heq, hrem, hreport, hprog⟩ := s.retire_jumped 2
    exact ⟨hregs, heq, hrem, s.retire_pcMoved 2, hlatch, hreport, hprog⟩

end Sys2Proof.Proofs
end

section
/-! SUPPORT. Settles the statement on what a faulting instruction writes (60_exceptions.md R165): first the one
effect of an instruction that reports a fault. -/

namespace Sys2Proof.Machine

/-- Of the effects an instruction can have (R108), only taking a fault reports one. -/
theorem Effect.eq_raiseFault {i : Instr} {s t : State} (h : Effect i s t) (hfault : t.stopReason = .fault) :
    ∃ c, (i.wf = true → causeFits c (firstByte i)) ∧ t = s.raiseFault c (firstByte i) := by
  cases h with
  | fault c hc => exact ⟨c, hc, rfl⟩
  | write | divide | compare | jump | pass | halt => cases hfault

/-- `exec` is a function, so the state it answers is the one its effect describes. -/
theorem effect_of_exec {i : Instr} {s t : State} (h : exec i s = .next t) : Effect i s t := by
  obtain ⟨u, hu, heffect⟩ := exec_effect i s
  rw [h] at hu
  cases hu
  exact heffect

end Sys2Proof.Machine

namespace Sys2Proof.Proofs

open Sys2Proof.Machine

/-- Settles O38: the only effect that reports a fault is `State.raiseFault`, with a cause the instruction can
raise, and that operation makes the writes of R165 and no other. -/
theorem faultWritesOnlyReport : Obligations.FaultWritesOnlyReport := by
  intro i s t hwf hexec hfault
  obtain ⟨c, hcause, rfl⟩ := (effect_of_exec hexec).eq_raiseFault hfault
  exact ⟨c, hcause hwf, s.raiseFault_faultTaken c (firstByte i)⟩

end Sys2Proof.Proofs
end

section
/-! SUPPORT. Settles the statements on the decoder and the encoder as inverses (30_encoding.md sections 1 to 4):
first the opcode byte with its operand bytes, then each direction for one instruction. -/

namespace Sys2Proof

/-! ### From an instruction to its bytes and back -/

/-- An opcode byte with all the operand bytes of a four-byte format, whatever follows. -/
theorem decode_four {op : Op} (h : op.format.length = 4) (b1 b2 b3 : Byte) (rest : List Byte) :
    decode (op.code :: b1 :: b2 :: b3 :: rest) = .ok (decodeInstr op.code b1 b2 b3, rest) := by
  rw [decode_cons_whole (by simp [h]), instrLen_code, h]
  rfl

/-- An opcode byte with the operand byte of a two-byte format; the next two bytes are not the instruction's. -/
theorem decode_two {op : Op} (h : op.format.length = 2) (b1 : Byte) (rest : List Byte) :
    decode (op.code :: b1 :: rest) = .ok (decodeInstr op.code b1 (rest.getD 0 0#8) (rest.getD 1 0#8), rest) := by
  rw [decode_cons_whole (by simp [h]), instrLen_code, h]
  rfl

theorem decode_hlt (rest : List Byte) : decode (Op.hlt.code :: rest) = .ok (.hlt, rest) :=
  decode_cons_whole (by simp [Op.format, Format.length])

/-- Decoding undoes encoding, with any bytes after the instruction. -/
theorem decode_encode_append {i : Instr} (hwf : i.wf = true) (rest : List Byte) :
    decode (encode i ++ rest) = .ok (i, rest) := by
  cases i with
  | load d imm =>
    have himm : decodeInstr Op.load.code d (imm.extractLsb' 8 8) (imm.extractLsb' 0 8) = .load d imm :=
      congrArg (Instr.load d) (be16_extractLsb' imm)
    exact (decode_four rfl d _ _ rest).trans (by rw [himm])
  | add | sub | mul | div | eq | neq | gt | lt | gtq | ltq =>
    exact decode_four rfl _ _ _ rest
  | jmp | jmpf | jmpb | jeq | aloc => exact decode_two rfl _ rest
  | hlt => exact decode_hlt rest
  | illegal b0 => exact decode_illegal (by simpa [Instr.wf] using hwf) rest

theorem decode_encode {i : Instr} (hwf : i.wf = true) : decode (encode i) = .ok (i, []) := by
  simpa using decode_encode_append hwf []

/-! ### From bytes to an instruction and back -/

/-- The decoder reads the operand bytes of the opcode's format and keeps each of them. -/
theorem encode_decodeInstr (b0 b1 b2 b3 : Byte) :
    encode (decodeInstr b0 b1 b2 b3) = [b0, b1, b2, b3].take (instrLen b0) := by
  cases hop : Op.ofByte b0 with
  | none =>
    have hb0 := Op.ofByte_eq_none.mp hop
    rw [decodeInstr_illegal hb0, instrLen_illegal hb0]
    rfl
  | some op =>
    obtain rfl := Op.code_of_ofByte hop
    rw [instrLen_code]
    cases op with
    | load =>
      exact congrArg₂ (fun hi lo => [Op.load.code, b1, hi, lo]) BitVec.extractLsb'_append_eq_left
        BitVec.extractLsb'_append_eq_right
    | add | sub | mul | div | hlt | jmp | jmpf | jmpb | eq | neq | gt | lt | gtq | ltq | jeq | aloc => rfl

theorem length_encode_decodeInstr (b0 b1 b2 b3 : Byte) :
    (encode (decodeInstr b0 b1 b2 b3)).length = instrLen b0 := by
  rw [encode_decodeInstr, List.length_take]
  exact Nat.min_eq_left (instrLen_le b0)

/-- The decoder's three operand bytes are those that follow, and zeros where the list is over; a part that the
list has does not meet the zeros. -/
theorem take_getD_operands {b0 : Byte} {tail : List Byte} {n : Nat} (hn : n ≤ 4) (h : n ≤ (b0 :: tail).length) :
    [b0, tail.getD 0 0#8, tail.getD 1 0#8, tail.getD 2 0#8].take n = (b0 :: tail).take n := by
  rcases tail with _ | ⟨b1, _ | ⟨b2, _ | ⟨b3, tail⟩⟩⟩
  all_goals
    simp only [List.length_cons, List.length_nil] at h
    interval_cases n <;> rfl

end Sys2Proof

namespace Sys2Proof.Proofs

open Sys2Proof.Machine

/-- Settles O1: by the formats of the instructions, LOAD's half-word being its two bytes. -/
theorem decodeOfEncode : Obligations.DecodeOfEncode :=
  fun _ rest hwf => decode_encode_append hwf rest

/-- Settles O2: the decoder takes the length of the opcode byte off the list, and these are the bytes of the
instruction it answers. -/
theorem encodeOfDecode : Obligations.EncodeOfDecode := by
  intro bs i rest h
  cases bs with
  | nil => cases h
  | cons b0 tail =>
    obtain ⟨_, hlen⟩ := decode_consumes_instrLen h
    rw [decode_cons_whole hlen] at h
    cases h
    refine ⟨decodeInstr_wf .., ?_⟩
    rw [encode_decodeInstr, take_getD_operands (instrLen_le b0) hlen, List.take_append_drop]

/-- Settles O3: the answers of the decoder on the ten byte sequences. -/
theorem specWordsDecode : Obligations.SpecWordsDecode :=
  ⟨rfl, rfl, rfl, rfl, rfl, rfl, rfl, rfl, rfl, rfl⟩

/-- Settles O6: the decoder's two answers, by whether the operand bytes are all there. -/
theorem shortInputRejected : Obligations.ShortInputRejected := by
  refine ⟨rfl, fun b0 rest => ⟨fun h => ?rejected, fun h => decode_cons_short h⟩⟩
  case rejected =>
    by_contra hlen
    rw [decode_cons_whole (Nat.not_lt.mp hlen)] at h
    cases h

/-- Settles O7: a defined code maps to its operation, and a byte of 17 or more to none. -/
theorem opcodeMapRoundTrip : Obligations.OpcodeMapRoundTrip := by
  intro illegalByte op hrange
  cases op with
  | defined op => simp [byteToOpcode, opcodeToByte]
  | illegal => simp [byteToOpcode, opcodeToByte, Op.ofByte_eq_none.mpr hrange]

end Sys2Proof.Proofs
end

section
/-! SUPPORT. Settles the statements on assembling a line (30_encoding.md sections 5 to 7): first the operand texts
of a canonical line read back, then the line, then what the encoder makes of parsed operands. -/

namespace Sys2Proof.Machine

/-! ### Operand texts -/

/-- An operand's text in a canonical line: a space, then characters that parse to the token wherever no further
digit follows. -/
def OperandText (text : List Char) (tok : Token) : Prop :=
  ∃ body, text = ' ' :: body ∧ ∀ rest, stopsDigits rest = true →
    skipWs (body ++ rest) = body ++ rest ∧ parseOperand (body ++ rest) = some (tok, rest)

theorem regText_operandText (i : Byte) : OperandText (regText i) (.register i) :=
  ⟨_, rfl, fun _ hrest => ⟨rfl, parseOperand_register i hrest⟩⟩

theorem numText_operandText (imm : BitVec 16) : OperandText (numText imm) (.number (BitVec.ofNat 32 imm.toNat)) :=
  ⟨_, rfl, fun _ hrest => ⟨rfl, parseOperand_number imm hrest⟩⟩

/-- After an operand, or after the mnemonic, comes the space of the next operand or the end of the line. -/
theorem flatten_operandTexts_head {texts : List (List Char)} {toks : List Token}
    (h : List.Forall₂ OperandText texts toks) : texts.flatten = [] ∨ ∃ cs, texts.flatten = ' ' :: cs := by
  cases h with
  | nil => exact .inl rfl
  | cons htext _ =>
    obtain ⟨body, rfl, _⟩ := htext
    exact .inr ⟨_, rfl⟩

theorem stopsDigits_flatten {texts : List (List Char)} {toks : List Token}
    (h : List.Forall₂ OperandText texts toks) : stopsDigits texts.flatten = true := by
  rcases flatten_operandTexts_head h with hnil | ⟨cs, hcons⟩
  · rw [hnil]; rfl
  · rw [hcons]; rfl

theorem parseOperands_nil (n : Nat) : parseOperands n [] = ([], []) := by
  cases n <;> rfl

theorem parseOperands_succ {n : Nat} {cs rest : List Char} {tok : Token} (h : parseOperand cs = some (tok, rest)) :
    parseOperands (n + 1) cs =
      (tok :: (parseOperands n (skipWs rest)).1, (parseOperands n (skipWs rest)).2) := by
  rw [parseOperands, h]

/-- The operand texts of a line parse to their tokens, and nothing is left. -/
theorem parseOperands_operandTexts {texts : List (List Char)} {toks : List Token}
    (h : List.Forall₂ OperandText texts toks) {n : Nat} (hn : toks.length ≤ n) :
    parseOperands n (skipWs texts.flatten) = (toks, []) := by
  induction h generalizing n with
  | nil => exact parseOperands_nil n
  | @cons text tok texts toks htext htexts ih =>
    obtain ⟨n, rfl⟩ : ∃ m, n = m + 1 := ⟨n - 1, by simp at hn; omega⟩
    obtain ⟨body, rfl, hbody⟩ := htext
    obtain ⟨hskip, hparse⟩ := hbody texts.flatten (stopsDigits_flatten htexts)
    have hspace : skipWs (' ' :: (body ++ texts.flatten)) = body ++ texts.flatten := hskip
    rw [List.flatten_cons, List.cons_append, hspace, parseOperands_succ hparse,
      ih (Nat.le_of_succ_le_succ hn)]

/-! ### The line -/

theorem mnemonic_isLetter (op : Op) : ∀ c ∈ mnemonic op, isLetter c = true := by
  rw [← List.all_eq_true]
  cases op <;> rfl

/-- A mnemonic is not empty and begins neither with white space nor with the mark of a directive. -/
theorem mnemonic_cons (op : Op) : ∃ c cs, mnemonic op = c :: cs ∧ isWs c = false ∧ c ≠ '.' := by
  cases op <;> exact ⟨_, _, rfl, by decide, by decide⟩

/-- The letters of a line end where its operands begin. -/
theorem mnemonic_span (op : Op) {texts : List (List Char)} {toks : List Token}
    (h : List.Forall₂ OperandText texts toks) :
    (lineOf op texts).takeWhile isLetter = mnemonic op ∧ (lineOf op texts).dropWhile isLetter = texts.flatten := by
  rw [lineOf, List.takeWhile_append_of_pos (mnemonic_isLetter op), List.dropWhile_append_of_pos (mnemonic_isLetter op)]
  have hspace : isLetter ' ' = false := by decide
  rcases flatten_operandTexts_head h with hnil | ⟨cs, hcons⟩
  · simp [hnil]
  · simp [hcons, hspace]

theorem parseBody_lineOf (op : Op) {texts : List (List Char)} {toks : List Token}
    (h : List.Forall₂ OperandText texts toks) (hn : toks.length ≤ 3) :
    parseBody (lineOf op texts) = some (mnemonic op, toks) := by
  obtain ⟨htake, hdrop⟩ := mnemonic_span op h
  obtain ⟨c, cs, hop, _, _⟩ := mnemonic_cons op
  have hname : (mnemonic op).isEmpty = false := by rw [hop]; rfl
  simp [parseBody, htake, hdrop, hname, parseOperands_operandTexts h hn]

/-- A line that does not begin with white space or with the mark of a directive is an operation's (R74). -/
theorem parseLine_cons {c : Char} {cs : List Char} (hws : isWs c = false) (hdot : c ≠ '.') :
    parseLine (c :: cs) =
      (parseBody (c :: cs)).map (fun p => AsmInstr.ofParts (some (mnemonicToOpcode p.1)) none p.2) := by
  have hskip : skipWs (c :: cs) = c :: cs := by simp [skipWs, hws]
  unfold parseLine
  rw [hskip]
  split
  · rename_i h
    exact absurd (List.cons.inj h).1 hdot
  · rfl

theorem parseLine_lineOf (op : Op) {texts : List (List Char)} {toks : List Token}
    (h : List.Forall₂ OperandText texts toks) (hn : toks.length ≤ 3) :
    parseLine (lineOf op texts) = some (.ofParts (some (.defined op)) none toks) := by
  obtain ⟨c, cs, hop, hws, hdot⟩ := mnemonic_cons op
  have hline : lineOf op texts = c :: (cs ++ texts.flatten) := by rw [lineOf, hop]; rfl
  rw [hline, parseLine_cons hws hdot, ← hline, parseBody_lineOf op h hn, Option.map_some,
    mnemonicToOpcode_mnemonic]

/-! ### Lines that assemble -/

theorem assemble_lineOf (illegalByte : Byte) (op : Op) {texts : List (List Char)} {toks : List Token}
    (h : List.Forall₂ OperandText texts toks) (hn : toks.length ≤ 3) :
    assemble illegalByte (lineOf op texts) =
      some (toBytes illegalByte (.ofParts (some (.defined op)) none toks)) := by
  rw [assemble, parseLine_lineOf op h hn, Option.map_some]

theorem toBytes_registers (illegalByte : Byte) (op : Op) {rs : List Byte} (h : rs.length ≤ 3) :
    toBytes illegalByte (.ofParts (some (.defined op)) none (rs.map .register)) = .ok (op.code :: rs) := by
  match rs, h with
  | [], _ => rfl
  | [_], _ => rfl
  | [_, _], _ => rfl
  | [_, _, _], _ => rfl

/-- A line of registers assembles to the opcode byte and their indices. -/
theorem assemble_registers (illegalByte : Byte) (op : Op) {rs : List Byte} (h : rs.length ≤ 3) :
    assemble illegalByte (lineOf op (rs.map regText)) = some (.ok (op.code :: rs)) := by
  have htexts : List.Forall₂ OperandText (rs.map regText) (rs.map .register) := by
    simp [List.forall₂_map_left_iff, List.forall₂_map_right_iff, List.forall₂_same, regText_operandText]
  rw [assemble_lineOf illegalByte op htexts (by simpa using h), toBytes_registers illegalByte op h]

/-- Widening the half-word to a number token's pattern keeps the 16 bits that the encoder takes. -/
theorem extractLsb'_number (imm : BitVec 16) :
    (BitVec.ofNat 32 imm.toNat).extractLsb' 8 8 = imm.extractLsb' 8 8 ∧
    (BitVec.ofNat 32 imm.toNat).extractLsb' 0 8 = imm.extractLsb' 0 8 := by
  have hlt := imm.isLt
  constructor <;> apply BitVec.eq_of_toNat_eq <;>
    simp [Nat.mod_eq_of_lt (show imm.toNat < 4294967296 by omega)]

theorem assemble_load (illegalByte d : Byte) (imm : BitVec 16) :
    assemble illegalByte (lineOf .load [regText d, numText imm]) = some (.ok (encode (.load d imm))) := by
  obtain ⟨hhi, hlo⟩ := extractLsb'_number imm
  rw [assemble_lineOf illegalByte .load
    (.cons (regText_operandText d) (.cons (numText_operandText imm) .nil)) (by simp)]
  exact congrArg₂ (fun hi lo => some (Except.ok [Op.load.code, d, hi, lo])) hhi hlo

/-! ### The encoder on parsed operands -/

/-- What the parser puts into a slot the encoder emits. -/
theorem operandBytes_of_slotOk {slot : Option Token} (h : slotOk slot) : ∃ bs, operandBytes slot = .ok bs := by
  cases slot with
  | none => exact ⟨_, rfl⟩
  | some tok =>
    cases tok with
    | register | number => exact ⟨_, rfl⟩
    | operation | directive | labelDeclaration | labelUsage => exact h.elim

theorem operandBytes_length_le {slot : Option Token} {bs : List Byte} (h : operandBytes slot = .ok bs) :
    bs.length ≤ 2 :=
  emitted_length_le (operandBytes_ok_iff.mp h)

end Sys2Proof.Machine

namespace Sys2Proof.Proofs

open Sys2Proof.Machine

/-- Settles O8: every line but LOAD's is a line of registers, a pad operand being `$0`. -/
theorem canonicalLinesAssemble : Obligations.CanonicalLinesAssemble := by
  intro illegalByte i line h
  cases i with
  | load d imm =>
    cases h
    exact assemble_load illegalByte d imm
  | add a b d | sub a b d | mul a b d | div a b d =>
    cases h
    exact assemble_registers illegalByte _ (rs := [a, b, d]) (by simp)
  | hlt =>
    cases h
    exact assemble_registers illegalByte _ (rs := []) (by simp)
  | jmp r | jmpf r | jmpb r | jeq r | aloc r =>
    cases h
    exact assemble_registers illegalByte _ (rs := [r]) (by simp)
  | eq a b _ | neq a b _ | gt a b _ | lt a b _ | gtq a b _ | ltq a b _ =>
    cases h
    exact assemble_registers illegalByte _ (rs := [a, b, 0#8]) (by simp)
  | illegal => cases h

/-- Settles O11: a plain line has an opcode and three slots that emit two bytes at most each; a directive has no
opcode. -/
theorem parsedLinesEncode : Obligations.ParsedLinesEncode := by
  intro illegalByte line x h
  have hxor := parseLine_opcode_xor_directive h
  refine ⟨fun hplain => ?plain, fun hdir => toBytes_noOpcode illegalByte (by simpa [hdir] using hxor)⟩
  case plain =>
    obtain ⟨op, hop⟩ : ∃ op, x.opcode = some op := Option.isSome_iff_exists.mp (by simp [hxor, hplain])
    obtain ⟨hs1, hs2, hs3⟩ := parseLine_slotsOk h
    obtain ⟨b1, h1⟩ := operandBytes_of_slotOk hs1
    obtain ⟨b2, h2⟩ := operandBytes_of_slotOk hs2
    obtain ⟨b3, h3⟩ := operandBytes_of_slotOk hs3
    refine ⟨_, toBytes_ok illegalByte hop h1 h2 h3, ?_⟩
    have := operandBytes_length_le h1
    have := operandBytes_length_le h2
    have := operandBytes_length_le h3
    simp only [List.length_cons, List.length_append]
    omega

end Sys2Proof.Proofs
end

section
/-! SUPPORT. Settles the statements on what a step fetches (40_step_and_dispatch.md R100 to R105): first what each
answer of the fetch says of the state, then what a step can do, which later sections cite. -/

namespace Sys2Proof.Machine

/-! ### What the fetch's answers say -/

/-- The instruction that is fetched is the decoder's, from bytes that are all in the buffer. -/
theorem of_fetch_instr {s : State} {i : Instr} (h : fetch s = .instr i) :
    s.status = .run ∧ ∃ b0 bs, s.prog.read s.pc.toNat = some b0 ∧ s.pc.toNat + instrLen b0 ≤ s.plen ∧
      s.prog.readBytes s.pc.toNat (instrLen b0) = some (b0 :: bs) ∧
      i = decodeInstr b0 (bs.getD 0 0#8) (bs.getD 1 0#8) (bs.getD 2 0#8) := by
  rcases fetch_cases s with ⟨_, hf⟩ | ⟨_, _, hf⟩ | ⟨_, _, _, _, _, hf⟩ |
    ⟨hrun, _, b0, bs, hread, hin, hbytes, hf⟩ | ⟨_, _, hf, _⟩ <;> rw [h] at hf <;> cases hf
  exact ⟨hrun, b0, bs, hread, hin, hbytes, rfl⟩

/-- Each idle outcome has its own reason, in the order of the checks. -/
theorem of_fetch_idle {s : State} {r : StopReason} (h : fetch s = .idle r) :
    (r = .terminal ∧ s.status ≠ .run) ∨ (r = .eop ∧ s.status = .run ∧ s.plen ≤ s.pc.toNat) ∨
    (r = .trunc ∧ s.status = .run ∧ s.pc.toNat < s.plen ∧
      ∃ b0, s.prog.read s.pc.toNat = some b0 ∧ s.plen < s.pc.toNat + instrLen b0) := by
  rcases fetch_cases s with ⟨hstop, hf⟩ | ⟨hrun, hend, hf⟩ | ⟨hrun, hpc, b0, hread, hshort, hf⟩ |
    ⟨_, _, _, _, _, _, _, hf⟩ | ⟨_, _, hf, _⟩ <;> rw [h] at hf <;> cases hf
  · exact .inl ⟨rfl, hstop⟩
  · exact .inr (.inl ⟨rfl, hrun, hend⟩)
  · exact .inr (.inr ⟨rfl, hrun, hpc, b0, hread, hshort⟩)

theorem of_fetch_terminal {s : State} (h : fetch s = .idle .terminal) : s.status ≠ .run := by
  simpa using of_fetch_idle h

theorem of_fetch_eop {s : State} (h : fetch s = .idle .eop) : s.status = .run ∧ s.plen ≤ s.pc.toNat := by
  simpa using of_fetch_idle h

theorem of_fetch_trunc {s : State} (h : fetch s = .idle .trunc) : s.status = .run ∧ s.pc.toNat < s.plen ∧
    ∃ b0, s.prog.read s.pc.toNat = some b0 ∧ s.plen < s.pc.toNat + instrLen b0 := by
  simpa using of_fetch_idle h

/-- The bytes at `pc`, all in the buffer, that decode with none left over are the instruction fetched. -/
theorem fetch_of_decode {s : State} {bs : List Byte} {i : Instr} (hrun : s.status = .run)
    (hbytes : s.prog.readBytes s.pc.toNat bs.length = some bs) (hin : s.pc.toNat + bs.length ≤ s.plen)
    (hdec : decode bs = .ok (i, [])) : fetch s = .instr i := by
  cases bs with
  | nil => cases hdec
  | cons b0 tail =>
    obtain ⟨hrest, hlen⟩ := decode_consumes_instrLen hdec
    have hexact : (b0 :: tail).length = instrLen b0 := Nat.le_antisymm (List.drop_eq_nil_iff.mp hrest) hlen
    have hpos := instrLen_pos b0
    obtain ⟨b, _, hread, _, hcons⟩ := Memory.readBytes_head hbytes
    obtain ⟨rfl, _⟩ := List.cons.inj hcons
    rw [hexact] at hbytes hin
    rw [fetch, if_neg (not_not_intro hrun), if_neg (by omega), hread]
    simp only [if_neg (Nat.not_lt.mpr hin), fetchBytes, hbytes, hdec]

theorem fetchBytes_congr {s : State} {m : Memory} {b0 : Byte}
    (h : ∀ a, s.pc.toNat ≤ a → a < s.pc.toNat + 4 → m.read a = s.prog.read a) :
    fetchBytes { s with prog := m } b0 = fetchBytes s b0 := by
  have hlen := instrLen_le b0
  have hbytes : m.readBytes s.pc.toNat (instrLen b0) = s.prog.readBytes s.pc.toNat (instrLen b0) :=
    Memory.readBytes_congr fun a hle hlt => h a hle (by omega)
  simp only [fetchBytes, hbytes]

/-! ### What a step can do -/

/-- Either nothing executes and the outcome alone is written, or the fetched instruction has its effect. -/
theorem step_cases {s t : State} (h : step s = .next t) :
    (∃ r, fetch s = .idle r ∧ t = s.report r) ∨ (∃ i, fetch s = .instr i ∧ Effect i s t) := by
  cases hf : fetch s with
  | idle r =>
    rw [step_idle hf] at h
    cases h
    exact .inl ⟨r, rfl, rfl⟩
  | hole a =>
    rw [step_hole hf] at h
    cases h
  | instr i =>
    rw [step_instr hf] at h
    exact .inr ⟨i, rfl, effect_of_exec h⟩

theorem step_answers {s : State} (h : s.bufferOk) : ∃ t, step s = .next t := by
  cases hf : fetch s with
  | idle r => exact ⟨_, step_idle hf⟩
  | hole a => exact absurd hf (fetch_no_hole h a)
  | instr i =>
    obtain ⟨t, ht, _⟩ := exec_effect i s
    exact ⟨t, (step_instr hf).trans ht⟩

/-- An executed instruction reports none of the idle outcomes, so an idle outcome is the fetch's. -/
theorem fetch_idle_of_step {s t : State} (h : step s = .next t)
    (hidle : t.stopReason = .eop ∨ t.stopReason = .trunc ∨ t.stopReason = .terminal) :
    fetch s = .idle t.stopReason ∧ t = s.report t.stopReason := by
  rcases step_cases h with ⟨r, hf, rfl⟩ | ⟨i, _, heffect⟩
  · exact ⟨hf, rfl⟩
  · rcases heffect.stopReason_cases with he | he | he <;> simp [he] at hidle

theorem step_illegal {s : State} {b0 : Byte} (hrun : s.status = .run) (hpc : s.pc.toNat < s.plen)
    (hread : s.prog.read s.pc.toNat = some b0) (hb0 : 17 ≤ b0.toNat) :
    step s = .next (s.raiseFault .illegalOpcode b0) :=
  step_instr (fetch_of_decode (bs := [b0]) hrun (by simp [Memory.readBytes, hread]) hpc (decode_illegal hb0 []))

end Sys2Proof.Machine

namespace Sys2Proof.Proofs

open Sys2Proof.Machine

/-- Settles O14: the decoder reads the instruction's own bytes, and the step executes what is fetched. -/
theorem stepExecutesDecoded : Obligations.StepExecutesDecoded :=
  fun _ _ _ hrun hbytes hin hdec => step_instr (fetch_of_decode hrun hbytes hin hdec)

/-- Settles O20: the opcode byte is one of the four offsets, and no instruction is longer than four bytes. -/
theorem fetchReadsFourBytesAtMost : Obligations.FetchReadsFourBytesAtMost := by
  intro s m h
  have hread : m.read s.pc.toNat = s.prog.read s.pc.toNat := h _ (Nat.le_refl _) (by omega)
  simp only [fetch, hread, fetchBytes_congr h]

/-- Settles O19: the four bytes decode to LOAD of the big-endian pair, which its meaning zero-extends. -/
theorem loadReadsBigEndian : Obligations.LoadReadsBigEndian := by
  intro s d hi lo hrun hin hbytes hd
  constructor
  · obtain ⟨_, _, _, hbytes1, hcons⟩ := Memory.readBytes_head hbytes
    obtain ⟨_, _, _, hbytes2, hcons'⟩ := Memory.readBytes_head hbytes1
    cases hcons
    cases hcons'
    rw [Memory.readBE, hbytes2]
    simp
  · have hstep := stepExecutesDecoded s [0#8, d, hi, lo] (.load d (be16 hi lo)) hrun hbytes hin rfl
    refine ⟨_, hstep.trans (exec_load_ok _ hd), ?_⟩
    rw [State.retire_reg, s.setReg_reg_same _ _ hd, zext32_toNat, be16_toNat]

/-- Settles O17: the completeness check for each opcode, and back from its outcome: a byte below `plen` with its
instruction beyond it is not the only one. -/
theorem incompleteInstructionReported : Obligations.IncompleteInstructionReported := by
  refine ⟨fun op => ⟨cutShort_code op, by cases op <;> decide⟩, fun s t hstep htrunc hrun => ?_⟩
  obtain ⟨hf, ht⟩ := fetch_idle_of_step hstep (.inr (.inl htrunc))
  refine ⟨ht, by simp [State.finished, htrunc], ?_⟩
  rw [htrunc] at hf
  obtain ⟨_, hpc, b0, hread, hshort⟩ := of_fetch_trunc hf
  exact ⟨b0, hread, by omega, hshort⟩

end Sys2Proof.Proofs
end

section
/-! SUPPORT. Settles the statements on what an executed instruction may write (10_state.md sections 2 to 6,
60_exceptions.md section 1), from the list of its effects. -/

namespace Sys2Proof.Machine

theorem SameProgram.refl (s : State) : SameProgram s s :=
  ⟨fun _ => rfl, rfl, rfl, rfl⟩

/-- A register is written by LOAD and the arithmetic when they retire, and by nothing else. -/
theorem Effect.regs_cases {i : Instr} {s t : State} (h : Effect i s t) :
    SameRegs s t ∨ ∃ d, destReg i = some d ∧ SameRegsBut d.toNat s t ∧ t.stopReason = .retired := by
  cases h with
  | write d v hd => exact .inr ⟨d, hd, s.setReg_sameRegsBut d.toNat v, rfl⟩
  | divide a b d q r hi => exact .inr ⟨d, hi ▸ rfl, s.setReg_sameRegsBut d.toNat q, rfl⟩
  | fault | halt | compare | jump | pass => exact .inl ⟨rfl, fun _ => rfl⟩

theorem Effect.eqFlag_cases {i : Instr} {s t : State} (h : Effect i s t) :
    t.eqFlag = s.eqFlag ∨ (isComparison i = true ∧ t.stopReason = .retired) := by
  cases h with
  | compare f hi => exact .inr ⟨hi, rfl⟩
  | fault | halt | write | divide | jump | pass => exact .inl rfl

theorem Effect.rem_cases {i : Instr} {s t : State} (h : Effect i s t) :
    t.rem = s.rem ∨ ((∃ a b d, i = .div a b d) ∧ t.stopReason = .retired) := by
  cases h with
  | divide a b d _ _ hi => exact .inr ⟨⟨a, b, d, hi⟩, rfl⟩
  | fault | halt | write | compare | jump | pass => exact .inl rfl

theorem Effect.report_cases {i : Instr} {s t : State} (h : Effect i s t) :
    (t.stopReason = .fault ∧ t.status = .fault) ∨
    (t.stopReason = .hlt ∧ i = .hlt ∧ t.status = .halt ∧
      t.cause = s.cause ∧ t.faultPc = s.faultPc ∧ t.faultOp = s.faultOp) ∨
    (t.stopReason = .retired ∧ SameReport s t) := by
  cases h with
  | fault => exact .inl ⟨rfl, rfl⟩
  | halt hi => exact .inr (.inl ⟨rfl, hi, rfl, rfl, rfl, rfl⟩)
  | write | divide | compare | jump | pass => exact .inr (.inr ⟨rfl, rfl, rfl, rfl, rfl⟩)

/-- No instruction stores to the program buffer. -/
theorem Effect.sameProgram {i : Instr} {s t : State} (h : Effect i s t) : SameProgram s t := by
  cases h with
  | fault | halt | write | divide | compare | jump | pass => exact ⟨fun _ => rfl, rfl, rfl, rfl⟩

theorem step_sameProgram {s t : State} (h : step s = .next t) : SameProgram s t := by
  rcases step_cases h with ⟨_, _, rfl⟩ | ⟨_, _, heffect⟩
  · exact .refl s
  · exact heffect.sameProgram

end Sys2Proof.Machine

namespace Sys2Proof.Proofs

open Sys2Proof.Machine

/-- Settles O39: the effect either keeps every register, or has a destination and retires. -/
theorem onlyDestinationWritten : Obligations.OnlyDestinationWritten := by
  intro i s t h
  rcases (effect_of_exec h).regs_cases with hsame | ⟨d, hd, hbut, hretired⟩
  · obtain ⟨hnreg, hregs⟩ := hsame
    exact ⟨fun _ => ⟨hnreg, hregs⟩, fun _ _ => ⟨hnreg, fun j _ => hregs j⟩, fun _ => ⟨hnreg, hregs⟩⟩
  · refine ⟨fun hnone => ?noDest, fun e he => ?dest, fun hno => absurd hretired hno⟩
    case noDest => simp [hd] at hnone
    case dest =>
      obtain rfl : d = e := Option.some.inj (hd.symm.trans he)
      exact hbut

/-- Settles O41: of the effects only a comparison's writes the flag. -/
theorem onlyComparisonsWriteFlag : Obligations.OnlyComparisonsWriteFlag :=
  fun _ _ _ h hne => (effect_of_exec h).eqFlag_cases.resolve_left hne

/-- Settles O42: of the effects only DIV's writes the remainder. -/
theorem onlyDivWritesRemainder : Obligations.OnlyDivWritesRemainder :=
  fun _ _ _ h hne => (effect_of_exec h).rem_cases.resolve_left hne

/-- Settles O43: a fault, a halt, or one of the effects that retire. -/
theorem onlyHaltAndFaultsWriteStatus : Obligations.OnlyHaltAndFaultsWriteStatus :=
  fun _ _ _ h => (effect_of_exec h).report_cases

/-- Settles O44: neither an idle outcome nor an effect writes the buffer. -/
theorem stepsNeverWriteProgram : Obligations.StepsNeverWriteProgram :=
  fun _ _ h => step_sameProgram h

end Sys2Proof.Proofs
end

section
/-! SUPPORT. Settles the statements on the invariant (10_state.md sections 3, 5, 6 and 8, 60_exceptions.md
sections 1 and 4): first each transition keeps it, then a history by induction on its transitions. -/

namespace Sys2Proof.Machine

/-! ### A step keeps the invariant -/

/-- The program and NREG are as they were, so the parameters and the buffer are as good as before. -/
theorem State.Inv.of_frame {s t : State} (h : s.Inv) (hnreg : t.nreg = s.nreg) (hprog : SameProgram s t)
    (hcause : t.causeOk) (hreport : t.reportOk) : t.Inv := by
  obtain ⟨_, hcells, hplen, hcap⟩ := hprog
  refine ⟨?_, ?_, hcause, hreport⟩
  · simpa only [State.paramsOk, hnreg, hcap] using h.params
  · simpa only [State.bufferOk, hcells, hplen, hcap] using h.buffer

/-- A state that kept the report and the program of one that meets the invariant tells the truth about its
fault, if its `pc` did not move while stopped. -/
theorem State.Inv.of_sameReport {s t : State} (h : s.Inv) (hnreg : t.nreg = s.nreg) (hprog : SameProgram s t)
    (hreport : SameReport s t) (hpc : s.status = .fault → t.pc = s.pc) : t.Inv := by
  obtain ⟨hstatus, hcause, hfaultPc, hfaultOp⟩ := hreport
  refine h.of_frame hnreg hprog ?_ fun hfault => ?_
  · simpa only [State.causeOk, hstatus, hcause] using h.cause
  · rw [hstatus] at hfault
    obtain ⟨hread, _⟩ := hprog
    rw [hread, hfaultPc, hfaultOp, hcause, hpc hfault]
    exact h.report hfault

theorem State.report_keeps_inv {s : State} (h : s.Inv) (r : StopReason) : (s.report r).Inv :=
  h.of_sameReport rfl (.refl s) ⟨rfl, rfl, rfl, rfl⟩ fun _ => rfl

/-- A fault of the byte at `pc`, of a cause that byte can raise, makes a true report. -/
theorem State.raiseFault_keeps_inv {s : State} {c : Cause} {b0 : Byte} (h : s.Inv) (hfits : causeFits c b0)
    (hread : s.prog.read s.pc.toNat = some b0) : (s.raiseFault c b0).Inv := by
  have hc : c ≠ .none := by
    rintro rfl
    exact hfits
  exact h.of_frame rfl (.refl s) ⟨fun hnone => absurd hnone hc, fun hno => absurd rfl hno⟩
    fun _ => ⟨hread, hfits, rfl⟩

/-- HLT executes in RUN, where no cause is recorded. -/
theorem State.halt_keeps_inv {s : State} (h : s.Inv) (hrun : s.status = .run) : s.halt.Inv := by
  have hcause : s.cause = .none := h.cause.mpr (by simp [hrun])
  exact h.of_frame rfl (.refl s) ⟨fun _ => by simp, fun _ => hcause⟩ fun hfault => by simp at hfault

theorem Effect.nreg_eq {i : Instr} {s t : State} (h : Effect i s t) : t.nreg = s.nreg := by
  rcases h.regs_cases with ⟨hnreg, _⟩ | ⟨_, _, ⟨hnreg, _⟩, _⟩ <;> exact hnreg

/-- An effect on a running machine of the instruction at `pc`. -/
theorem Effect.keeps_inv {i : Instr} {s t : State} (h : Effect i s t) (hinv : s.Inv) (hrun : s.status = .run)
    (hwf : i.wf = true) (hread : s.prog.read s.pc.toNat = some (firstByte i)) : t.Inv := by
  have hnotFault : s.status ≠ .fault := by simp [hrun]
  cases h with
  | fault c hc => exact State.raiseFault_keeps_inv hinv (hc hwf) hread
  | halt => exact State.halt_keeps_inv hinv hrun
  | write | divide | compare | jump | pass =>
    exact hinv.of_sameReport (by simp) ⟨fun _ => rfl, rfl, rfl, rfl⟩ ⟨rfl, rfl, rfl, rfl⟩
      fun hfault => absurd hfault hnotFault

theorem step_keeps_inv {s t : State} (hinv : s.Inv) (h : step s = .next t) : t.Inv := by
  rcases step_cases h with ⟨r, _, rfl⟩ | ⟨i, hf, heffect⟩
  · exact State.report_keeps_inv hinv r
  · obtain ⟨hrun, b0, bs, hread, _, _, rfl⟩ := of_fetch_instr hf
    exact heffect.keeps_inv hinv hrun (decodeInstr_wf ..) (by rw [firstByte_decodeInstr, hread])

theorem step_params {s t : State} (h : step s = .next t) : t.nreg = s.nreg ∧ t.progCap = s.progCap := by
  obtain ⟨_, _, _, hcap⟩ := step_sameProgram h
  refine ⟨?_, hcap⟩
  rcases step_cases h with ⟨r, _, rfl⟩ | ⟨i, _, heffect⟩
  · rfl
  · exact heffect.nreg_eq

/-! ### The host transitions keep the invariant -/

theorem State.resetFor_inv {nreg progCap : Nat} (hn : 3 ≤ nreg) (hn' : nreg ≤ 256) (hc : 1 ≤ progCap)
    (hc' : progCap ≤ 2147483647) : (State.resetFor nreg progCap).Inv :=
  { params := ⟨by simpa using hn, by simpa using hn', hc, hc'⟩
    buffer := ⟨rfl, Nat.zero_le _⟩
    cause := ⟨fun _ => Status.noConfusion, fun _ => rfl⟩
    report := Status.noConfusion }

@[simp] theorem State.appendByte_nreg (s : State) (b : Byte) : (s.appendByte b).nreg = s.nreg := by
  rw [State.appendByte]
  split <;> rfl

@[simp] theorem State.appendByte_progCap (s : State) (b : Byte) : (s.appendByte b).progCap = s.progCap := by
  rw [State.appendByte]
  split <;> rfl

/-- A fault's opcode byte stands below `plen`, where `Append` does not write. -/
theorem State.appendByte_keeps_inv {s : State} (h : s.Inv) (b : Byte) : (s.appendByte b).Inv := by
  obtain ⟨hpc, _, _, ⟨hstatus, hcause, hfaultPc, hfaultOp⟩, hbelow⟩ := s.appendByte_frame b
  refine ⟨?_, State.appendByte_bufferOk b h.buffer, ?_, fun hfault => ?_⟩
  · simpa only [State.paramsOk, State.appendByte_nreg, State.appendByte_progCap] using h.params
  · simpa only [State.causeOk, hstatus, hcause] using h.cause
  · rw [hstatus] at hfault
    obtain ⟨hread, hrest⟩ := h.report hfault
    obtain ⟨hoffsets, _⟩ := h.buffer
    have hlt : s.faultPc.toNat < s.plen := (Memory.read_isSome_lt hoffsets _).mp (by simp [hread])
    rw [hfaultPc, hfaultOp, hcause, hpc, hbelow _ hlt]
    exact ⟨hread, hrest⟩

theorem State.hostSetReg_cases (s : State) (i : Byte) (v : Word) :
    s.hostSetReg i v = s.setReg i.toNat v ∨ s.hostSetReg i v = s := by
  rcases Nat.lt_or_ge i.toNat s.nreg with hi | hi
  · exact .inl (State.hostSetReg_ok v hi)
  · exact .inr (State.hostSetReg_bad v hi)

theorem State.setReg_keeps_inv {s : State} (h : s.Inv) (i : Nat) (v : Word) : (s.setReg i v).Inv :=
  h.of_sameReport (by simp) (.refl s) ⟨rfl, rfl, rfl, rfl⟩ fun _ => rfl

/-- From a state of the invariant every transition runs through, within the invariant and with the same
parameters. -/
theorem transition_keeps_inv {s : State} (h : s.Inv) (l : Transition) :
    ∃ t, transition l s = .next t ∧ t.Inv ∧ t.nreg = s.nreg ∧ t.progCap = s.progCap := by
  cases l with
  | reset =>
    obtain ⟨hn, hn', hc, hc'⟩ := h.params
    exact ⟨_, rfl, State.resetFor_inv hn hn' hc hc', by simp [State.hostReset], rfl⟩
  | append b => exact ⟨_, rfl, State.appendByte_keeps_inv h b, by simp, by simp⟩
  | setReg i v =>
    refine ⟨_, rfl, ?_⟩
    rcases s.hostSetReg_cases i v with he | he <;> rw [he]
    · exact ⟨State.setReg_keeps_inv h i.toNat v, by simp, rfl⟩
    · exact ⟨h, rfl, rfl⟩
  | step =>
    obtain ⟨t, ht⟩ := step_answers h.buffer
    exact ⟨t, ht, step_keeps_inv h ht, step_params ht⟩

theorem runTransitions_keeps_inv {s : State} (h : s.Inv) (ls : List Transition) :
    ∃ t, runTransitions ls s = .next t ∧ t.Inv ∧ t.nreg = s.nreg ∧ t.progCap = s.progCap := by
  induction ls generalizing s with
  | nil => exact ⟨s, rfl, h, rfl, rfl⟩
  | cons l ls ih =>
    obtain ⟨u, hu, hinv, hnreg, hcap⟩ := transition_keeps_inv h l
    obtain ⟨t, ht, htinv, htnreg, htcap⟩ := ih hinv
    exact ⟨t, (runTransitions_cons_of_next ls hu).trans ht, htinv, htnreg.trans hnreg, htcap.trans hcap⟩

/-! ### The canonical form of the buffer -/

theorem transition_keeps_wf {l : Transition} {s t : State} (hwf : Memory.wf s.prog)
    (h : transition l s = .next t) : Memory.wf t.prog := by
  cases l with
  | reset =>
    cases h
    exact Memory.reset_wf s.nreg s.progCap
  | append b =>
    cases h
    rw [State.appendByte]
    split
    · exact Memory.write_keeps_wf s.prog s.plen b hwf
    · exact hwf
  | setReg i v =>
    cases h
    rcases s.hostSetReg_cases i v with he | he <;> rw [he] <;> exact hwf
  | step =>
    obtain ⟨_, hprog, _⟩ := step_sameProgram h
    rwa [hprog]

end Sys2Proof.Machine

namespace Sys2Proof.Proofs

open Sys2Proof.Machine

/-- Settles O45: an idle outcome keeps everything the invariant speaks of, and an effect on a running machine
keeps the report or makes a true one. -/
theorem stepKeepsInvariant : Obligations.StepKeepsInvariant :=
  fun _ _ hinv h => step_keeps_inv hinv h

/-- Settles O46: the buffer has no hole below `plen`, and every instruction has a next state. -/
theorem stepAlwaysAnswers : Obligations.StepAlwaysAnswers :=
  fun _ hinv => step_answers hinv.buffer

/-- Settles O13: the reset state has no byte, no cause and no fault, and the suggested parameters are in range. -/
theorem resetMeetsInvariant : Obligations.ResetMeetsInvariant :=
  ⟨fun _ _ hn hn' hc hc' => State.resetFor_inv hn hn' hc hc',
    State.resetFor_inv (by decide) (by decide) (by decide) (by decide)⟩

/-- Settles O47: by induction on the history, from the reset state. -/
theorem historiesKeepInvariant : Obligations.HistoriesKeepInvariant := by
  intro nreg progCap hn hn' hc hc' ls
  obtain ⟨t, ht, hinv, hnreg, hcap⟩ := runTransitions_keeps_inv (State.resetFor_inv hn hn' hc hc') ls
  exact ⟨t, ht, hinv, hnreg.trans (State.resetFor_nreg nreg progCap), hcap⟩

/-- Settles O48: only `Append` and `Reset` write the buffer, one at its place in the order, the other to empty. -/
theorem transitionsKeepMemoryForm : Obligations.TransitionsKeepMemoryForm :=
  fun _ _ _ hwf h => transition_keeps_wf hwf h

/-- Settles O49: the fetched bytes end within `plen`, which the capacity keeps below 2^31. -/
theorem sequentialPcExact : Obligations.SequentialPcExact := by
  intro s i hinv hf
  obtain ⟨_, b0, bs, _, hin, _, rfl⟩ := of_fetch_instr hf
  obtain ⟨_, hplen⟩ := hinv.buffer
  obtain ⟨_, _, _, hcap⟩ := hinv.params
  rw [length_encode_decodeInstr]
  exact ⟨hin, pc_add_exact (by omega)⟩

end Sys2Proof.Proofs
end

section
/-! SUPPORT. Settles the statements on the order of the checks, on runs and on stopped machines (60_exceptions.md
sections 3 and 5, 40_step_and_dispatch.md section 2): first when each idle outcome is reported. -/

namespace Sys2Proof.Machine

/-! ### When a step reports an idle outcome -/

theorem step_terminal_iff {s t : State} (h : step s = .next t) : t.stopReason = .terminal ↔ s.status ≠ .run := by
  refine ⟨fun hterm => ?_, fun hstop => ?_⟩
  · obtain ⟨hf, _⟩ := fetch_idle_of_step h (.inr (.inr hterm))
    rw [hterm] at hf
    exact of_fetch_terminal hf
  · rw [step_stopped hstop] at h
    cases h
    rfl

theorem step_eop_iff {s t : State} (h : step s = .next t) :
    t.stopReason = .eop ↔ s.status = .run ∧ s.plen ≤ s.pc.toNat := by
  refine ⟨fun heop => ?_, fun ⟨hrun, hend⟩ => ?_⟩
  · obtain ⟨hf, _⟩ := fetch_idle_of_step h (.inl heop)
    rw [heop] at hf
    exact of_fetch_eop hf
  · rw [step_atEnd hrun hend] at h
    cases h
    rfl

theorem step_trunc_iff {s t : State} {b0 : Byte} (h : step s = .next t) (hrun : s.status = .run)
    (hpc : s.pc.toNat < s.plen) (hread : s.prog.read s.pc.toNat = some b0) :
    t.stopReason = .trunc ↔ s.plen < s.pc.toNat + instrLen b0 := by
  refine ⟨fun htrunc => ?_, fun hshort => ?_⟩
  · obtain ⟨hf, _⟩ := fetch_idle_of_step h (.inr (.inl htrunc))
    rw [htrunc] at hf
    obtain ⟨_, _, b, hb, hshort⟩ := of_fetch_trunc hf
    obtain rfl : b0 = b := Option.some.inj (hread.symm.trans hb)
    exact hshort
  · rw [cutShort_instrLen b0 s hrun hpc hread hshort] at h
    cases h
    rfl

/-- A decoded instruction has the opcode byte that was read, and given that byte's length nothing is left. -/
theorem decode_readBytes {m : Memory} {a : Nat} {b0 : Byte} {bs rest : List Byte} {i : Instr}
    (hread : m.read a = some b0) (hbytes : m.readBytes a (instrLen b0) = some bs) (hdec : decode bs = .ok (i, rest)) :
    bs.length = instrLen b0 ∧ rest = [] ∧ firstByte i = b0 := by
  have hlen := Memory.readBytes_length hbytes
  obtain ⟨n, hn⟩ : ∃ n, instrLen b0 = n + 1 := ⟨instrLen b0 - 1, by have := instrLen_pos b0; omega⟩
  rw [hn] at hbytes
  obtain ⟨b, tail, hb, _, rfl⟩ := Memory.readBytes_head hbytes
  obtain rfl : b0 = b := Option.some.inj (hread.symm.trans hb)
  rw [decode_exact hlen] at hdec
  cases hdec
  exact ⟨hlen, rfl, firstByte_decodeInstr ..⟩

/-! ### Steps after the machine has finished -/

/-- The fetch does not look at the output latch, so an idle step is repeated. -/
theorem step_report_again {s : State} {r : StopReason} (h : fetch s = .idle r) :
    step (s.report r) = .next ((s.report r).report r) :=
  step_idle (s := s.report r) h

theorem Effect.status_of_finished {i : Instr} {s t : State} (h : Effect i s t) (hfin : t.finished = true) :
    t.status ≠ .run := by
  rcases h.report_cases with ⟨_, hstatus⟩ | ⟨_, _, hstatus, _⟩ | ⟨hretired, _⟩
  · simp [hstatus]
  · simp [hstatus]
  · simp [State.finished, hretired] at hfin

theorem step_after_finished {s t : State} (h : step s = .next t) (hfin : t.finished = true) :
    ∃ r, step t = .next (t.report r) ∧ r ≠ .retired := by
  rcases step_cases h with ⟨r, hf, rfl⟩ | ⟨i, _, heffect⟩
  · exact ⟨r, step_report_again hf, of_decide_eq_true hfin⟩
  · exact ⟨.terminal, step_stopped (heffect.status_of_finished hfin), by decide⟩

/-! ### Runs under fuel -/

theorem runUntilFinished_of_finished {s t : State} (n : Nat) (h : step s = .next t) (hfin : t.finished = true) :
    runUntilFinished (n + 1) s = .next t := by
  simp [runUntilFinished, h, hfin]

theorem runUntilFinished_of_retired {s t : State} (n : Nat) (h : step s = .next t) (hfin : t.finished = false) :
    runUntilFinished (n + 1) s = runUntilFinished n t := by
  simp [runUntilFinished, h, hfin]

/-- A run that answers a state took a first step. -/
theorem step_of_runUntilFinished {s t : State} {n : Nat} (h : runUntilFinished (n + 1) s = .next t) :
    ∃ u, step s = .next u := by
  rw [runUntilFinished] at h
  split at h
  · exact ⟨_, ‹_›⟩
  · cases h
  · cases h

theorem runUntilFinished_add_fuel {n : Nat} (k : Nat) {s t : State}
    (h : runUntilFinished (n + 1) s = .next t) (hfin : t.finished = true) :
    runUntilFinished (n + 1 + k) s = .next t := by
  obtain ⟨u, hu⟩ := step_of_runUntilFinished h
  rw [Nat.add_right_comm]
  cases hfu : u.finished with
  | true =>
    rw [runUntilFinished_of_finished _ hu hfu] at h ⊢
    exact h
  | false =>
    rw [runUntilFinished_of_retired _ hu hfu] at h ⊢
    cases n with
    | zero =>
      cases h
      simp [hfin] at hfu
    | succ n => exact runUntilFinished_add_fuel k h hfin

end Sys2Proof.Machine

namespace Sys2Proof.Proofs

open Sys2Proof.Machine

/-- Settles O18: the checks of the fetch in their order, and then the check of the register index fields. -/
theorem outcomeFollowsPriority : Obligations.OutcomeFollowsPriority := by
  intro s t hinv h
  refine ⟨step_terminal_iff h, step_eop_iff h, fun hrun hpc => ?_⟩
  obtain ⟨hoffsets, _⟩ := hinv.buffer
  obtain ⟨b0, hread⟩ := Option.isSome_iff_exists.mp ((Memory.read_isSome_lt hoffsets _).mpr hpc)
  refine ⟨b0, hread, fun hb0 => ?illegal, step_trunc_iff h hrun hpc hread, fun i rest hbytes hin hbad => ?index⟩
  case illegal =>
    rw [step_illegal hrun hpc hread hb0] at h
    cases h
    exact s.raiseFault_faultTaken _ _
  case index =>
    obtain ⟨bs, hbs, hdec⟩ := hbytes
    obtain ⟨hlen, rfl, rfl⟩ := decode_readBytes hread hbs hdec
    rw [stepExecutesDecoded s bs i hrun (by rw [hlen, hbs]) (by rw [hlen]; exact hin) hdec, exec_badIndex hbad] at h
    cases h
    exact s.raiseFault_faultTaken _ _

/-- Settles O50: after an idle outcome the same check decides again; after HLT or a fault the status does. -/
theorem finishedStepsAreIdle : Obligations.FinishedStepsAreIdle := by
  intro s t h hfin
  obtain ⟨r, hr, hne⟩ := step_after_finished h hfin
  exact ⟨_, hr, t.report_sameArch r, decide_eq_true hne⟩

/-- Settles O51: the first step either finishes both runs alike, or leaves a run with less fuel. -/
theorem moreFuelSameEnd : Obligations.MoreFuelSameEnd :=
  fun _ k _ _ h hfin => runUntilFinished_add_fuel k h hfin

/-- Settles O52: a stopped machine's step is idle, and the host writes have their frame. -/
theorem stickyUntilReset : Obligations.StickyUntilReset := by
  intro l s t hstop hreset h
  by_cases hstep : l = .step
  · subst hstep
    obtain rfl : s.report .terminal = t := Host.Outcome.next.inj ((step_stopped hstop).symm.trans h)
    exact ⟨⟨rfl, rfl, rfl, rfl⟩, rfl, rfl, rfl⟩
  · obtain ⟨hpc, heq, hrem, hreport, _⟩ := transition_hostWrite_frame hreset hstep h
    exact ⟨hreport, hpc, heq, hrem⟩

end Sys2Proof.Proofs
end

section
/-! SUPPORT. Settles the statement on appending the rest of an instruction (20_memory.md section 7): first a list
of bytes appended with room for them all, then the bytes that are in the buffer after it. -/

namespace Sys2Proof.Machine

/-- `Append`s with room for all of them write the bytes in a row at `plen`. -/
theorem State.appendBytes_room {s : State} {bs : List Byte} (h : s.plen + bs.length ≤ s.progCap) :
    s.appendBytes bs = { s with prog := s.prog.writeBytes s.plen bs, plen := s.plen + bs.length } := by
  induction bs generalizing s with
  | nil => rfl
  | cons b bs ih =>
    rw [List.length_cons] at h
    rw [State.appendBytes_cons, State.appendByte_room b (by omega), ih (by simp only; omega)]
    simp only [Memory.writeBytes, List.length_cons, Nat.add_right_comm _ 1, Nat.add_assoc]

/-- Consecutive reads join. -/
theorem Memory.readBytes_append {m : Memory} {a : Nat} {xs ys : List Byte}
    (hx : Memory.readBytes m a xs.length = some xs) (hy : Memory.readBytes m (a + xs.length) ys.length = some ys) :
    Memory.readBytes m a (xs ++ ys).length = some (xs ++ ys) := by
  induction xs generalizing a with
  | nil => exact hy
  | cons x xs ih =>
    obtain ⟨b, bs, hb, hbs, hcons⟩ := Memory.readBytes_head hx
    cases hcons
    rw [List.length_cons, Nat.add_comm xs.length 1, ← Nat.add_assoc] at hy
    simp only [List.cons_append, List.length_cons, Memory.readBytes, hb, ih hbs hy]

/-- Bytes written right after others that are there are read after them. -/
theorem Memory.readBytes_writeBytes_append {m : Memory} {a : Nat} {xs : List Byte} (ys : List Byte)
    (hx : Memory.readBytes m a xs.length = some xs) :
    Memory.readBytes (Memory.writeBytes m (a + xs.length) ys) a (xs ++ ys).length = some (xs ++ ys) := by
  apply Memory.readBytes_append
  · rw [Memory.readBytes_congr fun k _ hk => Memory.read_writeBytes_below ys m _ k hk, hx]
  · rw [Memory.readBytes_writeBytes ys m _ _ (Nat.le_refl _), List.take_length]

theorem length_encode_of_cons {i : Instr} {b0 : Byte} {tail : List Byte} (hwf : i.wf = true)
    (h : encode i = b0 :: tail) : (encode i).length = instrLen b0 := by
  have hdec := decode_encode hwf
  rw [h] at hdec ⊢
  obtain ⟨hrest, hlen⟩ := decode_consumes_instrLen hdec
  exact Nat.le_antisymm (List.drop_eq_nil_iff.mp hrest) hlen

/-- With a proper part of an instruction at the end of the buffer a step waits. -/
theorem step_waits {s : State} {i : Instr} {got missing : List Byte} (hrun : s.status = .run) (hwf : i.wf = true)
    (henc : encode i = got ++ missing) (hmissing : missing ≠ []) (hplen : s.pc.toNat + got.length = s.plen)
    (hgot : s.prog.readBytes s.pc.toNat got.length = some got) :
    step s = .next (s.report (if got = [] then .eop else .trunc)) := by
  cases got with
  | nil => exact step_atEnd hrun hplen.ge
  | cons b0 tail =>
    have hlen := length_encode_of_cons hwf henc
    have hpos := List.length_pos_iff.mpr hmissing
    rw [henc, List.length_append] at hlen
    obtain ⟨_, _, hread, _, hcons⟩ := Memory.readBytes_head hgot
    cases hcons
    rw [List.length_cons] at hplen hlen
    exact cutShort_instrLen b0 s hrun (by omega) hread (by omega)

end Sys2Proof.Machine

namespace Sys2Proof.Proofs

open Sys2Proof.Machine

/-- Settles O57: before the `Append`s the end of the buffer decides; after them the whole encoding is at `pc`,
and it decodes to the instruction. -/
theorem appendingCompletesInstruction : Obligations.AppendingCompletesInstruction := by
  intro s i got missing _ hrun hwf henc hmissing hplen hgot hroom
  have happend := State.appendBytes_room hroom
  refine ⟨step_waits hrun hwf henc hmissing hplen hgot, ?executes, ?frame⟩
  case executes =>
    have hbytes := Memory.readBytes_writeBytes_append missing hgot
    rw [hplen, ← henc] at hbytes
    rw [happend]
    refine stepExecutesDecoded _ (encode i) i hrun hbytes ?_ (decode_encode hwf)
    rw [henc, List.length_append]
    simp only
    omega
  case frame => rw [happend]

end Sys2Proof.Proofs
end

section
/-! SUPPORT. Settles the statement on DIV's law (42_arith.md section 2): first the remainder as a signed value,
then what a DIV that retired wrote. -/

namespace Sys2Proof.Machine

/-- The remainder is smaller than the divisor, so its pattern has its value. -/
theorem wrap32_remainder_toInt (x y : Word) :
    (wrap32 (remainder (sint x) (sint y))).toInt = Int.tmod x.toInt y.toInt := by
  have hmod : remainder (sint x) (sint y) = (x.srem y).toInt := by
    rw [BitVec.toInt_srem, Int.tmod_def, Int.mul_comm]
    rfl
  rw [wrap32, hmod, BitVec.ofInt_toInt, BitVec.toInt_srem]

theorem abs_tmod_lt (x : Int) {y : Int} (hy : y ≠ 0) : |Int.tmod x y| < |y| := by
  rw [Int.abs_eq_natAbs, Int.abs_eq_natAbs, Int.natAbs_tmod]
  exact_mod_cast Nat.mod_lt _ (Int.natAbs_pos.mpr hy)

/-- A remainder that is not 0 is positive exactly when the dividend is. -/
theorem tmod_eq_zero_or_pos_iff (x y : Int) : Int.tmod x y = 0 ∨ (0 < Int.tmod x y ↔ 0 < x) := by
  have hsign := Int.sign_tmod x y
  split at hsign
  · exact .inl (Int.sign_eq_zero_iff_zero.mp hsign)
  · exact .inr (by rw [← Int.sign_eq_one_iff_pos, hsign, Int.sign_eq_one_iff_pos])

/-- A DIV that retired had good indices and none of its two faults. -/
theorem exec_div_retired {a b d : Byte} {s t : State} (h : exec (.div a b d) s = .next t)
    (hretired : t.stopReason = .retired) :
    (s.reg b.toNat).toInt ≠ 0 ∧
    (t.reg d.toNat).toInt = Int.tdiv (s.reg a.toNat).toInt (s.reg b.toNat).toInt ∧
    t.rem.toInt = Int.tmod (s.reg a.toNat).toInt (s.reg b.toNat).toInt := by
  rcases withRegs_cases .div [a, b, d] s (divide a b d s) with ⟨hok, he⟩ | ⟨_, he⟩
  · have hexec : divide a b d s = .next t := he.symm.trans h
    rcases divide_cases a b d s with ⟨_, hd⟩ | ⟨_, _, hd⟩ | ⟨hnonzero, hfits, hd⟩ <;>
      rw [hd] at hexec <;> cases hexec
    · cases hretired
    · cases hretired
    · refine ⟨hnonzero, ?_, wrap32_remainder_toInt _ _⟩
      rw [State.retire_reg, State.setRem_reg, s.setReg_reg_same _ _ (hok d (by simp))]
      exact wrap32_quotient_toInt hfits
  · cases he.symm.trans h
    cases hretired

end Sys2Proof.Machine

namespace Sys2Proof.Proofs

open Sys2Proof.Machine

/-- Settles O26: quotient and remainder are those of division toward zero, whose law is the library's. -/
theorem divisionLaw : Obligations.DivisionLaw := by
  intro a b d s t h hretired
  obtain ⟨hnonzero, hquot, hrem⟩ := exec_div_retired h hretired
  rw [hquot, hrem]
  exact ⟨(Int.tdiv_mul_add_tmod _ _).symm, abs_tmod_lt _ hnonzero, tmod_eq_zero_or_pos_iff _ _⟩

end Sys2Proof.Proofs
end

section
/-! SUPPORT. Settles the statements on JMPF, JMPB and ILLEGAL (43_control.md R137, R138,
45_reserved_and_illegal.md R156), by the rules of a jump and of a fault. -/

namespace Sys2Proof.Machine

theorem exec_jmpf_ok {r : Byte} {s : State} (h : r.toNat < s.nreg) :
    exec (.jmpf r) s = takeJump .jmpf (s.pc.toNat + 2 + (s.reg r.toNat).toInt) s :=
  withRegs_ok (by simpa using h)

theorem exec_jmpb_ok {r : Byte} {s : State} (h : r.toNat < s.nreg) :
    exec (.jmpb r) s = takeJump .jmpb (s.pc.toNat + 2 - (s.reg r.toNat).toInt) s :=
  withRegs_ok (by simpa using h)

theorem exec_illegal (b0 : Byte) (s : State) : exec (.illegal b0) s = .next (s.raiseFault .illegalOpcode b0) :=
  rfl

end Sys2Proof.Machine

namespace Sys2Proof.Proofs

open Sys2Proof.Machine

/-- Settles O29: with a good index JMPF is the shared jump to `pc + 2` plus the register's signed value. -/
theorem jmpfAddsDistance : Obligations.JmpfAddsDistance :=
  ⟨cutShort_code .jmpf, fun r => ⟨rfl, fun s =>
    ⟨fun hr => jumpsTo_of_exec_eq (exec_jmpf_ok hr), badRegisterIndexFaults (.jmpf r) s⟩⟩⟩

/-- Settles O30: with a good index JMPB is the shared jump to `pc + 2` minus the register's signed value. -/
theorem jmpbSubtractsDistance : Obligations.JmpbSubtractsDistance :=
  ⟨cutShort_code .jmpb, fun r => ⟨rfl, fun s =>
    ⟨fun hr => jumpsTo_of_exec_eq (exec_jmpb_ok hr), badRegisterIndexFaults (.jmpb r) s⟩⟩⟩

/-- Settles O35: ILLEGAL is one byte and means taking its fault. -/
theorem illegalTakesFault : Obligations.IllegalTakesFault :=
  fun b0 _ => ⟨rfl, fun s => ⟨_, exec_illegal b0 s, s.raiseFault_faultTaken .illegalOpcode b0, rfl⟩⟩

end Sys2Proof.Proofs
end

section
/-! SUPPORT. Settles the statement on the registers an instruction does not name (10_state.md section 2): writing
one of them first commutes with each operation that instructions are made of. -/

namespace Sys2Proof.Machine

/-- The answer with register `k` written in its next state. -/
def setRegAfter (k : Nat) (v : Word) : Result → Result
  | .next t => .next (t.setReg k v)
  | .fault f => .fault f
  | .refused r => .refused r

/-! ### Register `k` and the state's operations -/

theorem State.setReg_comm (s : State) {k d : Nat} (v w : Word) (h : d ≠ k) :
    (s.setReg k v).setReg d w = (s.setReg d w).setReg k v := by
  simp [State.setReg, List.set_comm v w h.symm]

theorem withRegs_setReg {op : Op} {fields : List Byte} {s : State} {k : Nat} {v : Word} {r r' : Result}
    (h : r' = setRegAfter k v r) :
    withRegs op fields (s.setReg k v) r' = setRegAfter k v (withRegs op fields s r) := by
  have hok : (s.setReg k v).regsOk fields = s.regsOk fields := by simp [State.regsOk]
  rw [withRegs, withRegs, hok, h]
  split <;> rfl

theorem takeJump_setReg (op : Op) (target : Int) (s : State) (k : Nat) (v : Word) :
    takeJump op target (s.setReg k v) = setRegAfter k v (takeJump op target s) := by
  rw [takeJump, takeJump]
  cases pcTarget target <;> rfl

theorem arith_setReg {a b d : Byte} {k : Nat} (op : Op) (f : Int → Int → Int) (s : State) (v : Word)
    (ha : a.toNat ≠ k) (hb : b.toNat ≠ k) (hd : d.toNat ≠ k) :
    arith op f a b d (s.setReg k v) = setRegAfter k v (arith op f a b d s) := by
  refine withRegs_setReg ?_
  rw [s.setReg_reg_other k _ v ha, s.setReg_reg_other k _ v hb, s.setReg_comm _ _ hd]
  rfl

theorem compare_setReg {a b : Byte} {k : Nat} (op : Op) (rel : Word → Word → Bool) (s : State) (v : Word)
    (ha : a.toNat ≠ k) (hb : b.toNat ≠ k) :
    compare op rel a b (s.setReg k v) = setRegAfter k v (compare op rel a b s) := by
  refine withRegs_setReg ?_
  rw [s.setReg_reg_other k _ v ha, s.setReg_reg_other k _ v hb]
  rfl

theorem divide_setReg {a b d : Byte} {k : Nat} (s : State) (v : Word)
    (ha : a.toNat ≠ k) (hb : b.toNat ≠ k) (hd : d.toNat ≠ k) :
    divide a b d (s.setReg k v) = setRegAfter k v (divide a b d s) := by
  simp only [divide]
  rw [s.setReg_reg_other k _ v ha, s.setReg_reg_other k _ v hb, s.setReg_comm _ _ hd]
  split_ifs <;> rfl

/-! ### Register `k` and the instructions -/

theorem exec_setReg_of_unnamed {i : Instr} {k : Nat} (s : State) (v : Word)
    (h : ∀ f ∈ regFields i, f.toNat ≠ k) : exec i (s.setReg k v) = setRegAfter k v (exec i s) := by
  cases i with
  | load d imm =>
    have hd : d.toNat ≠ k := by simpa [regFields] using h
    refine withRegs_setReg ?_
    rw [s.setReg_comm _ _ hd]
    rfl
  | add a b d | sub a b d | mul a b d =>
    obtain ⟨ha, hb, hd⟩ : a.toNat ≠ k ∧ b.toNat ≠ k ∧ d.toNat ≠ k := by simpa [regFields] using h
    exact arith_setReg _ _ s v ha hb hd
  | div a b d =>
    obtain ⟨ha, hb, hd⟩ : a.toNat ≠ k ∧ b.toNat ≠ k ∧ d.toNat ≠ k := by simpa [regFields] using h
    exact withRegs_setReg (divide_setReg s v ha hb hd)
  | eq a b _ | neq a b _ | gt a b _ | lt a b _ | gtq a b _ | ltq a b _ =>
    obtain ⟨ha, hb⟩ : a.toNat ≠ k ∧ b.toNat ≠ k := by simpa [regFields] using h
    exact compare_setReg _ _ s v ha hb
  | jmp r | jmpf r | jmpb r =>
    have hr : r.toNat ≠ k := by simpa [regFields] using h
    refine withRegs_setReg ?_
    rw [s.setReg_reg_other k _ v hr]
    exact takeJump_setReg _ _ s k v
  | jeq r =>
    have hr : r.toNat ≠ k := by simpa [regFields] using h
    refine withRegs_setReg ?_
    rw [s.setReg_reg_other k _ v hr, State.setReg_eqFlag, takeJump_setReg]
    split <;> rfl
  | hlt | aloc | illegal => rfl

end Sys2Proof.Machine

namespace Sys2Proof.Proofs

open Sys2Proof.Machine

/-- Settles O40: every instruction answers a next state, and writing the register first is writing it after. -/
theorem unnamedRegistersIrrelevant : Obligations.UnnamedRegistersIrrelevant := by
  intro i s k v h
  obtain ⟨t, ht, _⟩ := exec_effect i s
  exact ⟨t, ht, by rw [exec_setReg_of_unnamed s v h, ht]; rfl⟩

end Sys2Proof.Proofs
end

section
/-! SUPPORT. Settles the statements on `Reset` and on the output ports (70_reset_and_hazards.md section 1,
10_state.md section 8): first the register codes, each of which names one value. -/

namespace Sys2Proof.Machine

theorem statusCode_injective : Function.Injective statusCode := by
  intro x y
  cases x <;> cases y <;> decide

theorem causeCode_injective : Function.Injective causeCode := by
  intro x y
  cases x <;> cases y <;> decide

theorem stopReasonCode_injective : Function.Injective stopReasonCode := by
  intro x y
  cases x <;> cases y <;> decide

theorem outputs_status_eq_iff (i : Byte) (s : State) (x : Status) :
    (outputs i s).status = statusCode x ↔ s.status = x :=
  statusCode_injective.eq_iff

theorem outputs_cause_eq_iff (i : Byte) (s : State) (x : Cause) :
    (outputs i s).cause = causeCode x ↔ s.cause = x :=
  causeCode_injective.eq_iff

theorem outputs_stopReason_eq_iff (i : Byte) (s : State) (x : StopReason) :
    (outputs i s).stopReason = stopReasonCode x ↔ s.stopReason = x :=
  stopReasonCode_injective.eq_iff

/-- Only RETIRED has the code 0, so `finished` can be read off the outcome's code. -/
theorem outputs_finished_iff (i : Byte) (s : State) :
    (outputs i s).finished = true ↔ (outputs i s).stopReason ≠ 0#3 :=
  decide_eq_true_iff.trans (outputs_stopReason_eq_iff i s .retired).not.symm

theorem outputs_dbg_ok {i : Byte} {s : State} (h : i.toNat < s.nreg) :
    (outputs i s).dbgData = s.reg i.toNat ∧ (outputs i s).dbgValid = true :=
  ⟨if_pos h, decide_eq_true h⟩

theorem outputs_dbg_bad {i : Byte} {s : State} (h : s.nreg ≤ i.toNat) :
    (outputs i s).dbgData = 0#32 ∧ (outputs i s).dbgValid = false :=
  ⟨if_neg (Nat.not_lt.mpr h), decide_eq_false (Nat.not_lt.mpr h)⟩

/-- The capacity keeps the program length below 2^31, so its 32-bit port is exact. -/
theorem outputs_plen_exact (i : Byte) {s : State} (h : s.Inv) : (outputs i s).plen.toNat = s.plen := by
  obtain ⟨_, hplen⟩ := h.buffer
  obtain ⟨_, _, _, hcap⟩ := h.params
  exact Nat.mod_eq_of_lt (by omega)

theorem outputs_fault_iff_cause (i : Byte) {s : State} (h : s.Inv) :
    (outputs i s).status = 2#2 ↔ (outputs i s).cause ≠ 0#4 := by
  calc (outputs i s).status = 2#2
      ↔ s.status = .fault := outputs_status_eq_iff i s .fault
    _ ↔ s.cause ≠ .none := (h.cause.not.trans not_not).symm
    _ ↔ (outputs i s).cause ≠ 0#4 := (outputs_cause_eq_iff i s .none).not.symm

end Sys2Proof.Machine

namespace Sys2Proof.Proofs

open Sys2Proof.Machine

/-- Settles O12: `Reset` is the reset state of the machine's own parameters, and `rst` has the first priority. -/
theorem resetLeaves : Obligations.ResetLeaves := by
  intro s
  exact ⟨s.hostReset, rfl, fun p hrst => clockEdge_of_arbitrate (p := p) (if_pos hrst) s,
    State.resetFor_nreg _ _, State.resetFor_reg _ _, rfl, rfl, rfl, rfl, rfl, rfl, rfl, rfl, fun _ => rfl, rfl, rfl,
    rfl⟩

/-- Settles O56: the ports are the fields or their codes, and a code names one value. -/
theorem outputsShowState : Obligations.OutputsShowState := by
  intro i s
  refine ⟨rfl, rfl, rfl, rfl, rfl, ?status, ?cause, ?stopReason, decide_eq_true_iff, outputs_dbg_ok, outputs_dbg_bad,
    outputs_finished_iff i s, fun h => ⟨outputs_plen_exact i h, outputs_fault_iff_cause i h⟩⟩
  case status =>
    have hcode := outputs_status_eq_iff i s
    exact ⟨hcode .run, hcode .halt, hcode .fault⟩
  case cause =>
    have hcode := outputs_cause_eq_iff i s
    exact ⟨hcode .none, hcode .illegalOpcode, hcode .divByZero, hcode .divOverflow, hcode .regIndex, hcode .pcRange⟩
  case stopReason =>
    have hcode := outputs_stopReason_eq_iff i s
    exact ⟨hcode .retired, hcode .eop, hcode .trunc, hcode .hlt, hcode .fault, hcode .terminal⟩

end Sys2Proof.Proofs
end
